-- ==== Sys2Proof/Word.lean ====
section
/-! DEFINITION. The machine's words (spec/00_scope.md R5, R6): a general register and an effective address have
XLEN = 64 bits, an instruction has 32, memory is made of bytes. -/

namespace Sys2Proof

/-- One byte of storage (R26). -/
abbrev Byte := BitVec 8

/-- The contents of a register: XLEN = 64 bits (R5, R21, R22). -/
abbrev Word := BitVec 64

/-- A byte address: 64 bits, arithmetic modulo 2^64 (R35, R36). -/
abbrev Addr := BitVec 64

/-- An instruction word, bit 0 the least significant (R50). -/
abbrev Insn := BitVec 32

/-- A register number: the 5-bit fields RT, RS, RA, RB, FRT, FRS name one of 32 registers (R20, R22). -/
abbrev Reg := Fin 32

end Sys2Proof
end

