-- ==== Sys2Proof/Config.lean ====
section
/-! DEFINITION. The launch parameters of spec/00_scope.md R5 as plain data, and what the model leaves unknown: the free values and
the conversions that are not the recommended ones. The parameters
are arguments of a run (spec/70_reset_and_hazards.md R160): they stand in State, constant during a run, so that a statement
about every state covers every setting (log 4). -/

namespace Sys2Proof

/-- BYTE_ORDER (R31): the byte at the lowest address is the most significant (`be`) or the least significant (`le`). -/
inductive ByteOrder where
  | be
  | le
deriving DecidableEq, Repr

/-- MISALIGNED (R34): a misaligned data access raises AlignmentFault, or is performed as byte accesses. -/
inductive Misaligned where
  | fault
  | split
deriving DecidableEq, Repr

/-- A run of `size` byte addresses from `base` on: MEMORY_MAP (R35) is a list of these. -/
structure Region where
  base : Nat
  size : Nat
deriving DecidableEq, Repr

/-- OPCODES (R5, R58): the allocation of primary and extended opcode numbers. Each of the 13 immediate forms has a primary opcode
of its own (R58 (b)); the indexed forms share the one primary opcode `indexed` and differ by a 10-bit extended opcode
(R58 (c)); the two DS-Form rows have a 2-bit extended opcode as well (R53). The shifted mnemonics get no number (R59, R115). -/
structure Opcodes where
  lwzup   : BitVec 6
  lbzup   : BitVec 6
  stwup   : BitVec 6
  stbup   : BitVec 6
  lhzup   : BitVec 6
  lhaup   : BitVec 6
  sthup   : BitVec 6
  lfsup   : BitVec 6
  lfdup   : BitVec 6
  stfsup  : BitVec 6
  stfdup  : BitVec 6
  ldup    : BitVec 6
  ldupXo  : BitVec 2
  stdup   : BitVec 6
  stdupXo : BitVec 2
  /-- The one primary opcode of all indexed forms. -/
  indexed : BitVec 6
  ldupx   : BitVec 10
  lwzupx  : BitVec 10
  lbzupx  : BitVec 10
  stdupx  : BitVec 10
  stwupx  : BitVec 10
  stbupx  : BitVec 10
  lhzupx  : BitVec 10
  lwaupx  : BitVec 10
  lhaupx  : BitVec 10
  sthupx  : BitVec 10
  lfsupx  : BitVec 10
  lfdupx  : BitVec 10
  stfsupx : BitVec 10
  stfdupx : BitVec 10
deriving DecidableEq, Repr

/-- The primary opcodes of the 13 immediate forms (R58 (b)), in the order of R59. -/
def Opcodes.primary (ops : Opcodes) : List (BitVec 6) :=
  [ops.lwzup, ops.lbzup, ops.stwup, ops.stbup, ops.lhzup, ops.lhaup, ops.sthup, ops.lfsup, ops.lfdup, ops.stfsup,
    ops.stfdup, ops.ldup, ops.stdup]

/-- The extended opcodes of the 14 indexed forms that have one (R58 (c)), in the order of R59. -/
def Opcodes.extended (ops : Opcodes) : List (BitVec 10) :=
  [ops.ldupx, ops.lwzupx, ops.lbzupx, ops.stdupx, ops.stwupx, ops.stbupx, ops.lhzupx, ops.lwaupx, ops.lhaupx,
    ops.sthupx, ops.lfsupx, ops.lfdupx, ops.stfsupx, ops.stfdupx]

/-- What R58 asks of an allocation, and what makes the rows pairwise disjoint (R67 (1)): every immediate form has a primary
opcode of its own, the shared one is none of these, and the extended opcodes differ. -/
abbrev Opcodes.wf (ops : Opcodes) : Prop :=
  ops.primary.Nodup ∧ ops.indexed ∉ ops.primary ∧ ops.extended.Nodup

/-- FpSingleToDouble and FpDoubleToSingle (R5, D13: "configuration functions with the recommended instances of rules R101,
R102"): the recommended pair, or the `index`-th of the pairs the spec leaves open, about which nothing is known (log 10). A
choice and not a function, since State is plain data. -/
inductive FpConversions where
  | recommended
  | other (index : Nat)
deriving DecidableEq, Repr

/-- The launch parameters (R5, R160 (a) and (b)). -/
structure Launch where
  byteOrder  : ByteOrder
  misaligned : Misaligned
  /-- ADMIT_FP: whether the eight floating-point instructions have a meaning (R100). -/
  admitFp    : Bool
  /-- OPCODES: the allocation the decoder reads words by (R58, R59). -/
  opcodes    : Opcodes
  /-- FpSingleToDouble and FpDoubleToSingle (R101, R102). -/
  fpConversions : FpConversions
  /-- MEMORY_MAP: which byte addresses exist (R35). -/
  memoryMap  : List Region
  /-- TEXT_BASE: where the program stands (R27). -/
  textBase   : Addr
  /-- TEXT: the words of the program (R27). -/
  text       : List Insn
deriving DecidableEq, Repr

/-- The free values (log 8): the n-th draw of 32 bits, about which nothing is known. It is the word that
FpDoubleToSingle leaves undefined (R102, U7: "any value"). -/
opaque Config.draw32 : Nat → BitVec 32

/-- FpSingleToDouble of the `index`-th pair of conversions that is not the recommended one: any total function on bit patterns
(R5; log 10). -/
opaque Config.singleToDouble (index : Nat) : BitVec 32 → Word

/-- FpDoubleToSingle of the `index`-th pair that is not the recommended one: any function on bit patterns, total (R5) or, as the
recommended one is, without a value on some (R102; log 10). -/
opaque Config.doubleToSingle (index : Nat) : Word → Option (BitVec 32)

end Sys2Proof
end

