-- ==== Sys2Proof/Syntax.lean ====
section
/-! DEFINITION. The instructions: one constructor for each of the 41 rows of spec/opcode_table.json, named as its
mnemonic. Operands are the fields of the three formats (spec/30_encoding.md R52 to R55): register numbers, the 16-bit D, the
14-bit DS. The 14 shifted mnemonics have no operand list (spec/43_shifted_postupdate.md R115), so none is given here. -/

namespace Sys2Proof

inductive Instr where
  /-- R71: Load Byte and Zero with Post-Update, D-Form. -/
  | lbzup  (rt ra : Reg) (d : BitVec 16)
  /-- R72: Load Byte and Zero with Post-Update Indexed, X-Form. -/
  | lbzupx (rt ra rb : Reg)
  /-- R73: Load Halfword and Zero with Post-Update, D-Form. -/
  | lhzup  (rt ra : Reg) (d : BitVec 16)
  /-- R74: Load Halfword and Zero with Post-Update Indexed, X-Form. -/
  | lhzupx (rt ra rb : Reg)
  /-- R75: Load Halfword Algebraic with Post-Update, D-Form. -/
  | lhaup  (rt ra : Reg) (d : BitVec 16)
  /-- R76: Load Halfword Algebraic with Post-Update Indexed, X-Form. -/
  | lhaupx (rt ra rb : Reg)
  /-- R77: Load Word and Zero with Post-Update, D-Form. -/
  | lwzup  (rt ra : Reg) (d : BitVec 16)
  /-- R78: Load Word and Zero with Post-Update Indexed, X-Form. -/
  | lwzupx (rt ra rb : Reg)
  /-- R79: Load Word Algebraic with Post-Update Indexed, X-Form. -/
  | lwaupx (rt ra rb : Reg)
  /-- R80: Load Doubleword with Post-Update, DS-Form. -/
  | ldup   (rt ra : Reg) (ds : BitVec 14)
  /-- R81: Load Doubleword with Post-Update Indexed, X-Form. -/
  | ldupx  (rt ra rb : Reg)
  /-- R86: Store Byte with Post-Update, D-Form. -/
  | stbup  (rs ra : Reg) (d : BitVec 16)
  /-- R87: Store Byte with Post-Update Indexed, X-Form. -/
  | stbupx (rs ra rb : Reg)
  /-- R88: Store Halfword with Post-Update, D-Form. -/
  | sthup  (rs ra : Reg) (d : BitVec 16)
  /-- R89: Store Halfword with Post-Update Indexed, X-Form. -/
  | sthupx (rs ra rb : Reg)
  /-- R90: Store Word with Post-Update, D-Form. -/
  | stwup  (rs ra : Reg) (d : BitVec 16)
  /-- R91: Store Word with Post-Update Indexed, X-Form. -/
  | stwupx (rs ra rb : Reg)
  /-- R92: Store Doubleword with Post-Update, DS-Form. -/
  | stdup  (rs ra : Reg) (ds : BitVec 14)
  /-- R93: Store Doubleword with Post-Update Indexed, X-Form. -/
  | stdupx (rs ra rb : Reg)
  /-- R103: Load Floating-Point Double with Post-Update, D-Form. -/
  | lfdup  (frt ra : Reg) (d : BitVec 16)
  /-- R104: Load Floating-Point Single with Post-Update, D-Form. -/
  | lfsup  (frt ra : Reg) (d : BitVec 16)
  /-- R105: Load Floating-Point Double with Post-Update Indexed, X-Form. -/
  | lfdupx (frt ra rb : Reg)
  /-- R106: Load Floating-Point Single with Post-Update Indexed (source spelling lsdupx, C6), X-Form. -/
  | lfsupx (frt ra rb : Reg)
  /-- R107: Store Floating-Point Double with Post-Update, D-Form. -/
  | stfdup  (frs ra : Reg) (d : BitVec 16)
  /-- R108: Store Floating-Point Single with Post-Update, D-Form. -/
  | stfsup  (frs ra : Reg) (d : BitVec 16)
  /-- R109: Store Floating-Point Double with Post-Update Indexed, X-Form. -/
  | stfdupx (frs ra rb : Reg)
  /-- R110: Store Floating-Point Single with Post-Update Indexed, X-Form. -/
  | stfsupx (frs ra rb : Reg)
  /-- R116: listed only. -/
  | lbzuspx
  /-- R117: listed only. -/
  | lhzuspx
  /-- R118: listed only. -/
  | lhauspx
  /-- R119: listed only. -/
  | lwzuspx
  /-- R120: listed only. -/
  | lwauspx
  /-- R121: listed only. -/
  | lduspx
  /-- R122: listed only. -/
  | stbuspx
  /-- R123: listed only. -/
  | sthuspx
  /-- R124: listed only. -/
  | stwuspx
  /-- R125: listed only. -/
  | stduspx
  /-- R126: listed only. -/
  | lfdupsx
  /-- R127: listed only. -/
  | lfsupsx
  /-- R128: listed only. -/
  | stfdupsx
  /-- R129: listed only. -/
  | stfsupsx
deriving DecidableEq, Repr

end Sys2Proof
end

