-- ==== Sys2Proof/WellFormed.lean ====
section
/-! DEFINITION. Which instructions have an encoding, and which of those are invalid forms (spec/30_encoding.md R59, R61).
An invalid form still decodes: executing it raises InvalidForm (R67, R141; log 17). -/

namespace Sys2Proof

/-- The instruction is one of the 27 rows of R59: the shifted mnemonics have no encoding, even provisional (R115). -/
def Instr.encodable : Instr → Bool
  | .lbzuspx | .lhzuspx | .lhauspx | .lwzuspx | .lwauspx | .lduspx
  | .stbuspx | .sthuspx | .stwuspx | .stduspx
  | .lfdupsx | .lfsupsx | .stfdupsx | .stfsupsx => false
  | .lbzup .. | .lbzupx .. | .lhzup .. | .lhzupx .. | .lhaup .. | .lhaupx .. | .lwzup .. | .lwzupx ..
  | .lwaupx .. | .ldup .. | .ldupx .. => true
  | .stbup .. | .stbupx .. | .sthup .. | .sthupx .. | .stwup .. | .stwupx .. | .stdup .. | .stdupx .. => true
  | .lfdup .. | .lfsup .. | .lfdupx .. | .lfsupx .. | .stfdup .. | .stfsup .. | .stfdupx .. | .stfsupx .. => true

/-- The invalid-form condition of R61 does not hold: RA is not 0 and, for the 11 fixed-point loads, RA is not RT. -/
def Instr.formOk : Instr → Bool
  | .lbzup rt ra _ | .lhzup rt ra _ | .lhaup rt ra _ | .lwzup rt ra _ => ra != 0 && ra != rt
  | .lbzupx rt ra _ | .lhzupx rt ra _ | .lhaupx rt ra _ | .lwzupx rt ra _ | .lwaupx rt ra _ => ra != 0 && ra != rt
  | .ldup rt ra _ => ra != 0 && ra != rt
  | .ldupx rt ra _ => ra != 0 && ra != rt
  | .stbup _ ra _ | .sthup _ ra _ | .stwup _ ra _ => ra != 0
  | .stbupx _ ra _ | .sthupx _ ra _ | .stwupx _ ra _ | .stdupx _ ra _ => ra != 0
  | .stdup _ ra _ => ra != 0
  | .lfdup _ ra _ | .lfsup _ ra _ | .stfdup _ ra _ | .stfsup _ ra _ => ra != 0
  | .lfdupx _ ra _ | .lfsupx _ ra _ | .stfdupx _ ra _ | .stfsupx _ ra _ => ra != 0
  | .lbzuspx | .lhzuspx | .lhauspx | .lwzuspx | .lwauspx | .lduspx
  | .stbuspx | .sthuspx | .stwuspx | .stduspx
  | .lfdupsx | .lfsupsx | .stfdupsx | .stfsupsx => true

/-- A well-formed instruction: one that has an encoding and is not an invalid form. -/
def Instr.wellFormed (i : Instr) : Bool :=
  i.encodable && i.formOk

/-- The mnemonic, as spec/opcode_table.json spells it. -/
def Instr.mnemonic : Instr → String
  | .lbzup .. => "lbzup"
  | .lbzupx .. => "lbzupx"
  | .lhzup .. => "lhzup"
  | .lhzupx .. => "lhzupx"
  | .lhaup .. => "lhaup"
  | .lhaupx .. => "lhaupx"
  | .lwzup .. => "lwzup"
  | .lwzupx .. => "lwzupx"
  | .lwaupx .. => "lwaupx"
  | .ldup .. => "ldup"
  | .ldupx .. => "ldupx"
  | .stbup .. => "stbup"
  | .stbupx .. => "stbupx"
  | .sthup .. => "sthup"
  | .sthupx .. => "sthupx"
  | .stwup .. => "stwup"
  | .stwupx .. => "stwupx"
  | .stdup .. => "stdup"
  | .stdupx .. => "stdupx"
  | .lfdup .. => "lfdup"
  | .lfsup .. => "lfsup"
  | .lfdupx .. => "lfdupx"
  | .lfsupx .. => "lfsupx"
  | .stfdup .. => "stfdup"
  | .stfsup .. => "stfsup"
  | .stfdupx .. => "stfdupx"
  | .stfsupx .. => "stfsupx"
  | .lbzuspx => "lbzuspx"
  | .lhzuspx => "lhzuspx"
  | .lhauspx => "lhauspx"
  | .lwzuspx => "lwzuspx"
  | .lwauspx => "lwauspx"
  | .lduspx => "lduspx"
  | .stbuspx => "stbuspx"
  | .sthuspx => "sthuspx"
  | .stwuspx => "stwuspx"
  | .stduspx => "stduspx"
  | .lfdupsx => "lfdupsx"
  | .lfsupsx => "lfsupsx"
  | .stfdupsx => "stfdupsx"
  | .stfsupsx => "stfsupsx"

end Sys2Proof
end

