-- ==== Sys2Proof/Decode.lean ====
section
/-! DEFINITION. The decoder and the encoder (spec/30_encoding.md R50 to R68) under an allocation OPCODES, and the
provisional allocation P0 of R59 (log 9). Decoding recognises invalid forms too: they raise InvalidForm when executed (R61, R67). -/

namespace Sys2Proof

/-- Why bytes are no instruction: the word matches no row of R59 (R62), or there are fewer than four bytes (R50). -/
inductive DecodeError where
  | unrecognised (insn : Insn)
  | truncated (bytes : Nat)
deriving DecidableEq, Repr

/-- One row of the table of R59: `w AND mask = pattern` says that w is the instruction, and `read` takes its fields out of w (R59, R67). -/
structure OpcodeRow where
  mnemonic : String
  pattern  : Insn
  mask     : Insn
  read     : Insn → Instr

/-- RT, RS, FRT or FRS: insn[25:21] (R52 to R55). -/
def fieldRT (w : Insn) : Reg := (w.extractLsb' 21 5).toFin

/-- RA: insn[20:16] (R52 to R54). -/
def fieldRA (w : Insn) : Reg := (w.extractLsb' 16 5).toFin

/-- RB: insn[15:11] (R54). -/
def fieldRB (w : Insn) : Reg := (w.extractLsb' 11 5).toFin

/-- D: insn[15:0] (R52). -/
def fieldD (w : Insn) : BitVec 16 := w.extractLsb' 0 16

/-- DS: insn[15:2] (R53). -/
def fieldDS (w : Insn) : BitVec 14 := w.extractLsb' 2 14

/-- The mask of a D-Form row: PO (R52, R59). -/
def maskD : Insn := 0xFC000000#32

/-- The mask of a DS-Form row: PO and the 2-bit XO (R53, R59). -/
def maskDS : Insn := 0xFC000003#32

/-- The mask of an X-Form row: PO, the 10-bit XO and the reserved bit (R54, R59, R63). -/
def maskX : Insn := 0xFC0007FF#32

/-- The `match` of a D-Form row: PO, the other bits 0 (R52, R59). -/
def patternD (po : BitVec 6) : Insn := po ++ 0#26

/-- The `match` of a DS-Form row: PO and the 2-bit XO, the other bits 0 (R53, R59). -/
def patternDS (po : BitVec 6) (xo : BitVec 2) : Insn := po ++ 0#24 ++ xo

/-- The `match` of an X-Form row: PO, the 10-bit XO and the reserved bit 0, the other bits 0 (R54, R59, R63). -/
def patternX (po : BitVec 6) (xo : BitVec 10) : Insn := po ++ 0#15 ++ xo ++ 0#1

def rowD (mnemonic : String) (po : BitVec 6) (make : Reg → Reg → BitVec 16 → Instr) : OpcodeRow :=
  ⟨mnemonic, patternD po, maskD, fun w => make (fieldRT w) (fieldRA w) (fieldD w)⟩

def rowDS (mnemonic : String) (po : BitVec 6) (xo : BitVec 2) (make : Reg → Reg → BitVec 14 → Instr) : OpcodeRow :=
  ⟨mnemonic, patternDS po xo, maskDS, fun w => make (fieldRT w) (fieldRA w) (fieldDS w)⟩

def rowX (mnemonic : String) (po : BitVec 6) (xo : BitVec 10) (make : Reg → Reg → Reg → Instr) : OpcodeRow :=
  ⟨mnemonic, patternX po xo, maskX, fun w => make (fieldRT w) (fieldRA w) (fieldRB w)⟩

/-- The provisional allocation P0 (R59, D12; log 9). -/
def Opcodes.p0 : Opcodes where
  lwzup   := 33#6
  lbzup   := 35#6
  stwup   := 37#6
  stbup   := 39#6
  lhzup   := 41#6
  lhaup   := 43#6
  sthup   := 45#6
  lfsup   := 49#6
  lfdup   := 51#6
  stfsup  := 53#6
  stfdup  := 55#6
  ldup    := 58#6
  ldupXo  := 1#2
  stdup   := 62#6
  stdupXo := 1#2
  indexed := 31#6
  ldupx   := 53#10
  lwzupx  := 55#10
  lbzupx  := 119#10
  stdupx  := 181#10
  stwupx  := 183#10
  stbupx  := 247#10
  lhzupx  := 311#10
  lwaupx  := 373#10
  lhaupx  := 375#10
  sthupx  := 439#10
  lfsupx  := 567#10
  lfdupx  := 631#10
  stfsupx := 695#10
  stfdupx := 759#10

/-- The 13 rows with a primary opcode of their own (R58 (b)). -/
def opcodeRowsImmediate (ops : Opcodes) : List OpcodeRow :=
  [ rowD  "lwzup"  ops.lwzup .lwzup,
    rowD  "lbzup"  ops.lbzup .lbzup,
    rowD  "stwup"  ops.stwup .stwup,
    rowD  "stbup"  ops.stbup .stbup,
    rowD  "lhzup"  ops.lhzup .lhzup,
    rowD  "lhaup"  ops.lhaup .lhaup,
    rowD  "sthup"  ops.sthup .sthup,
    rowD  "lfsup"  ops.lfsup .lfsup,
    rowD  "lfdup"  ops.lfdup .lfdup,
    rowD  "stfsup" ops.stfsup .stfsup,
    rowD  "stfdup" ops.stfdup .stfdup,
    rowDS "ldup"   ops.ldup ops.ldupXo .ldup,
    rowDS "stdup"  ops.stdup ops.stdupXo .stdup ]

/-- The 14 indexed rows, which share one primary opcode (R58 (c)). -/
def opcodeRowsIndexed (ops : Opcodes) : List OpcodeRow :=
  [ rowX "ldupx"   ops.indexed ops.ldupx .ldupx,
    rowX "lwzupx"  ops.indexed ops.lwzupx .lwzupx,
    rowX "lbzupx"  ops.indexed ops.lbzupx .lbzupx,
    rowX "stdupx"  ops.indexed ops.stdupx .stdupx,
    rowX "stwupx"  ops.indexed ops.stwupx .stwupx,
    rowX "stbupx"  ops.indexed ops.stbupx .stbupx,
    rowX "lhzupx"  ops.indexed ops.lhzupx .lhzupx,
    rowX "lwaupx"  ops.indexed ops.lwaupx .lwaupx,
    rowX "lhaupx"  ops.indexed ops.lhaupx .lhaupx,
    rowX "sthupx"  ops.indexed ops.sthupx .sthupx,
    rowX "lfsupx"  ops.indexed ops.lfsupx .lfsupx,
    rowX "lfdupx"  ops.indexed ops.lfdupx .lfdupx,
    rowX "stfsupx" ops.indexed ops.stfsupx .stfsupx,
    rowX "stfdupx" ops.indexed ops.stfdupx .stfdupx ]

/-- The 27 rows (mnemonic, match, mask) that an allocation gives; those of R59 for P0. -/
def opcodeTable (ops : Opcodes) : List OpcodeRow := opcodeRowsImmediate ops ++ opcodeRowsIndexed ops

/-- The word is an instruction of this row (R59). -/
def OpcodeRow.accepts (r : OpcodeRow) (w : Insn) : Bool := w &&& r.mask == r.pattern

/-- Decode under an allocation, steps (1) and (2) of R67; total on 32-bit words. Steps (3) and (4) stand in the meanings, since ADMIT_FP is a
launch parameter and an invalid form is recognised before it raises. -/
def decode (ops : Opcodes) (w : Insn) : Except DecodeError Instr :=
  match (opcodeTable ops).find? (fun r => r.accepts w) with
  | some r => .ok (r.read w)
  | none   => .error (.unrecognised w)

/-- The instruction word of four bytes, lowest address first, by BYTE_ORDER (R31). -/
def assembleInsn (order : ByteOrder) (b0 b1 b2 b3 : Byte) : Insn :=
  match order with
  | .be => b0 ++ b1 ++ b2 ++ b3
  | .le => b3 ++ b2 ++ b1 ++ b0

/-- Decode the first instruction of a list of bytes, with the bytes that follow it (R31, R50). -/
def decodeBytes (ops : Opcodes) (order : ByteOrder) : List Byte → Except DecodeError (Instr × List Byte)
  | b0 :: b1 :: b2 :: b3 :: rest =>
    match decode ops (assembleInsn order b0 b1 b2 b3) with
    | .ok i    => .ok (i, rest)
    | .error e => .error e
  | short => .error (.truncated short.length)

/-- The words of a byte image of a program (R31: fetch uses the byte order of the data); a rest of fewer than four bytes is no
word. -/
def textOfImage (order : ByteOrder) : List Byte → List Insn
  | b0 :: b1 :: b2 :: b3 :: rest => assembleInsn order b0 b1 b2 b3 :: textOfImage order rest
  | _ => []

/-- The bits of a register field (R67). -/
def regBits (r : Reg) : Insn := (BitVec.ofFin r : BitVec 5).setWidth 32

/-- The D-Form word: match OR (RT << 21) OR (RA << 16) OR D (R67). -/
def encodeD (pattern : Insn) (rt ra : Reg) (d : BitVec 16) : Insn :=
  pattern ||| (regBits rt <<< 21) ||| (regBits ra <<< 16) ||| d.setWidth 32

/-- The DS-Form word: match OR (RT << 21) OR (RA << 16) OR (disp AND 0xFFFC), disp being DS || 0b00 (R67). -/
def encodeDS (pattern : Insn) (rt ra : Reg) (ds : BitVec 14) : Insn :=
  pattern ||| (regBits rt <<< 21) ||| (regBits ra <<< 16) ||| (ds.setWidth 32 <<< 2)

/-- The X-Form word: match OR (RT << 21) OR (RA << 16) OR (RB << 11) (R67). -/
def encodeX (pattern : Insn) (rt ra rb : Reg) : Insn :=
  pattern ||| (regBits rt <<< 21) ||| (regBits ra <<< 16) ||| (regBits rb <<< 11)

/-- The word of an instruction under an allocation (R67); none for the 14 shifted mnemonics, which have no encoding (R115). -/
def encode (ops : Opcodes) : Instr → Option Insn
  | .lwzup rt ra d => some (encodeD (patternD ops.lwzup) rt ra d)
  | .lbzup rt ra d => some (encodeD (patternD ops.lbzup) rt ra d)
  | .stwup rs ra d => some (encodeD (patternD ops.stwup) rs ra d)
  | .stbup rs ra d => some (encodeD (patternD ops.stbup) rs ra d)
  | .lhzup rt ra d => some (encodeD (patternD ops.lhzup) rt ra d)
  | .lhaup rt ra d => some (encodeD (patternD ops.lhaup) rt ra d)
  | .sthup rs ra d => some (encodeD (patternD ops.sthup) rs ra d)
  | .lfsup frt ra d => some (encodeD (patternD ops.lfsup) frt ra d)
  | .lfdup frt ra d => some (encodeD (patternD ops.lfdup) frt ra d)
  | .stfsup frs ra d => some (encodeD (patternD ops.stfsup) frs ra d)
  | .stfdup frs ra d => some (encodeD (patternD ops.stfdup) frs ra d)
  | .ldup rt ra ds => some (encodeDS (patternDS ops.ldup ops.ldupXo) rt ra ds)
  | .stdup rs ra ds => some (encodeDS (patternDS ops.stdup ops.stdupXo) rs ra ds)
  | .ldupx rt ra rb => some (encodeX (patternX ops.indexed ops.ldupx) rt ra rb)
  | .lwzupx rt ra rb => some (encodeX (patternX ops.indexed ops.lwzupx) rt ra rb)
  | .lbzupx rt ra rb => some (encodeX (patternX ops.indexed ops.lbzupx) rt ra rb)
  | .stdupx rs ra rb => some (encodeX (patternX ops.indexed ops.stdupx) rs ra rb)
  | .stwupx rs ra rb => some (encodeX (patternX ops.indexed ops.stwupx) rs ra rb)
  | .stbupx rs ra rb => some (encodeX (patternX ops.indexed ops.stbupx) rs ra rb)
  | .lhzupx rt ra rb => some (encodeX (patternX ops.indexed ops.lhzupx) rt ra rb)
  | .lwaupx rt ra rb => some (encodeX (patternX ops.indexed ops.lwaupx) rt ra rb)
  | .lhaupx rt ra rb => some (encodeX (patternX ops.indexed ops.lhaupx) rt ra rb)
  | .sthupx rs ra rb => some (encodeX (patternX ops.indexed ops.sthupx) rs ra rb)
  | .lfsupx frt ra rb => some (encodeX (patternX ops.indexed ops.lfsupx) frt ra rb)
  | .lfdupx frt ra rb => some (encodeX (patternX ops.indexed ops.lfdupx) frt ra rb)
  | .stfsupx frs ra rb => some (encodeX (patternX ops.indexed ops.stfsupx) frs ra rb)
  | .stfdupx frs ra rb => some (encodeX (patternX ops.indexed ops.stfdupx) frs ra rb)
  | .lbzuspx | .lhzuspx | .lhauspx | .lwzuspx | .lwauspx | .lduspx
  | .stbuspx | .sthuspx | .stwuspx | .stduspx
  | .lfdupsx | .lfsupsx | .stfdupsx | .stfsupsx => none

/-- The instruction word that InvalidForm records (R141): the word the instruction was decoded from, since encoding inverts
decoding. -/
def wordOf (ops : Opcodes) (i : Instr) : Insn := (encode ops i).getD 0#32

/-- The word of an opcode-table row of `nbits` bits, laid out as bytes in big-endian order, the bits above `nbits` zero. -/
def tableWord (nbits w : Nat) : Insn := BitVec.ofNat 32 (w % 2 ^ nbits)

/-- The bytes of a word, lowest address first, in big-endian order (R31). -/
def insnBytesBE (w : Insn) : List Byte :=
  [w.extractLsb' 24 8, w.extractLsb' 16 8, w.extractLsb' 8 8, w.extractLsb' 0 8]

/-- The instruction the decoder reads from an opcode-table word, whose opcode numbers are those of P0 (R59). -/
def decodeTableWord (nbits w : Nat) : Option Instr :=
  match decodeBytes Opcodes.p0 .be (insnBytesBE (tableWord nbits w)) with
  | .ok (i, _) => some i
  | .error _   => none

end Sys2Proof
end

