-- ==== Sys2Proof/Machine/State.lean ====
section
/-! DEFINITION. The state of the machine as plain data (spec/10_state.md R20 to R30), the reasons a step can stop
(spec/60_exceptions.md R140), and the state after reset. -/

namespace Sys2Proof

/-- The parameters at State.reset: the spec's defaults BE and fault (D4, D5), table P0 (D12; log 9), and the recommended conversions
(D13; log 10). DESIGN CHOICE: the floating-point instructions
admitted (log 5), every address mapped (log 7), TEXT_BASE 0x100 and no program (log 6). -/
def Launch.default : Launch where
  byteOrder  := .be
  misaligned := .fault
  admitFp    := true
  opcodes    := Opcodes.p0
  fpConversions := .recommended
  memoryMap  := [⟨0, 2 ^ 64⟩]
  textBase   := 0x100#64
  text       := []

end Sys2Proof

namespace Sys2Proof.Machine

/-- The ways the machine stops with a fault. None supplies a value, so each is safe: it stops a run that a chip might
continue (R140: "All six err toward unprovable"). -/
inductive Fault where
  /-- R141. Raised by the 27 instructions with semantics, first of their tests, when RA = 0, or RA = RT on a fixed-point
  load; carries the instruction word. Safe. -/
  | invalidForm (insn : Insn)
  /-- R144. Raised by a data access of 2, 4 or 8 bytes at an address that is not a multiple of its width, when MISALIGNED is
  fault; carries the address of the access. Safe. -/
  | alignmentFault (a : Addr)
  /-- R145. Raised by a data access any of whose bytes is outside MEMORY_MAP; carries the address of the access. Safe. -/
  | storageFault (a : Addr)
  /-- R146. Raised by a load that includes a byte nothing has written, or one of the program text that memory does not hold as
  the text has it (R45, log 18); carries the address of the first such byte. (The spec
  raises it for registers too: in this model every register holds a value, log 1 and log 2.) Safe. -/
  | unwritten (a : Addr)
  /-- R163: a final state has no step (pc just past the last word, no fault recorded). Answered by step alone; the host's
  interface has no outcome for "no step", so it is a fault of this name (log 13). Safe. -/
  | runEnded
  /-- R140, R163: a state with a non-empty fault record has no step. Answered by step alone (log 13). Safe. -/
  | haltedByFault
  /-- pc is not the address of a word of TEXT and not the end of it: R161 shows that no run reaches such a state, and the spec
  gives it no step. Answered by step alone (log 13). Safe. -/
  | pcOutsideText (pc : Addr)
deriving DecidableEq, Repr

/-- The ways the machine refuses. None supplies a value, so each is safe. -/
inductive Refusal where
  /-- An arm of exec without a meaning. No arm of this model is one. Safe. -/
  | notModelled (mnemonic : String)
  /-- R142 (Unrecognised). Answered by step when the fetched word matches no row of the table; carries the word. Safe. -/
  | unrecognised (insn : Insn)
  /-- R143 (a) (Refused). Raised by the eight floating-point instructions, before every other test, when ADMIT_FP is false;
  carries the mnemonic. Safe. -/
  | fpNotAdmitted (mnemonic : String)
  /-- R143 (c) (Refused). Raised by a store any of whose bytes lies in the program text (R45). Safe. -/
  | storeToText
  /-- R143 (b) (Refused). Raised by the 14 shifted mnemonics, "listed in ls011 without semantics" (R115); carries the
  mnemonic. Safe. -/
  | noSemantics (mnemonic : String)
deriving DecidableEq, Repr

/-- What a `raise X(info)` raises (R9, R140): X with its info, by its kind. -/
inductive Stop where
  | fault (f : Fault)
  | refusal (r : Refusal)
deriving DecidableEq, Repr

/-- One triple (X, info, pc) of the fault record (R29, R140). -/
structure FaultEntry where
  cause : Stop
  pc    : Addr
deriving DecidableEq, Repr

/-- Data memory as (address, byte) pairs, addresses strictly rising. An address that is not listed has not been written and
holds no value (R26, R30; log 3). -/
abbrev Memory := List Host.Cell

/-- The canonical form of memory: addresses strictly rise and are addresses of the 2^64-byte space (R35). No entry can equal
what an unlisted address reads as, since that is no value. -/
abbrev Memory.wf (m : Memory) : Prop :=
  m.Pairwise (fun c c' => c.1 < c'.1) ∧ ∀ c ∈ m, c.1 < 2 ^ 64

structure State where
  /-- The launch parameters, constant during a run (R160 (a), (b)). -/
  launch      : Launch
  /-- GPR[0..31] (R20, R21). -/
  gpr         : Vector Word 32
  /-- FPR[0..31] (R22). -/
  fpr         : Vector Word 32
  /-- The address of the instruction being executed (R23). -/
  pc          : Addr
  /-- MEM (R26). -/
  mem         : Memory
  /-- The fault record (R29). -/
  faultRecord : List FaultEntry
  /-- The model's own counter of free values drawn (log 8). -/
  draws       : Nat
deriving DecidableEq, Repr

/-- The launch state of R160: pc at TEXT_BASE, the named registers and bytes, an empty fault record. (A launch state of this
model names every register: log 1, log 2.) -/
def State.launched (l : Launch) (gpr fpr : Vector Word 32) (mem : Memory) : State where
  launch      := l
  gpr         := gpr
  fpr         := fpr
  pc          := l.textBase
  mem         := mem
  faultRecord := []
  draws       := 0

/-- The machine right after reset (R30): as at a launch (R160), with no program loaded (log 6), nothing written in memory, and
zero in every register (DESIGN CHOICE, log 1 and log 2). -/
def State.reset : State :=
  State.launched Launch.default (Vector.replicate 32 0#64) (Vector.replicate 32 0#64) []

end Sys2Proof.Machine
end

