-- ==== Sys2Proof/Machine/Ops.lean ====
section
/-! DEFINITION. The named operations over registers, memory, program text and fault record: spec/20_memory.md R31 to R36,
R45, spec/60_exceptions.md R140, spec/70_reset_and_hazards.md R161, R163. -/

namespace Sys2Proof

/-! ### The launch parameters -/

/-- The address is in MEMORY_MAP (R35). -/
def Launch.admits (l : Launch) (addr : Nat) : Bool :=
  l.memoryMap.any (fun r => r.base ≤ addr && addr < r.base + r.size)

/-- The first address past the program text, as a number (R163). -/
def Launch.textEnd (l : Launch) : Nat := l.textBase.toNat + 4 * l.text.length

/-- The address lies in the program text region [TEXT_BASE, TEXT_BASE + 4*len(TEXT)) (R45). -/
def Launch.inText (l : Launch) (addr : Nat) : Bool := l.textBase.toNat ≤ addr && addr < l.textEnd

end Sys2Proof

namespace Sys2Proof.Machine

/-! ### Registers (R9, R21, R23) -/

def State.readGpr (s : State) (r : Reg) : Word := s.gpr.get r

def State.writeGpr (s : State) (r : Reg) (v : Word) : State := { s with gpr := s.gpr.set r v }

def State.readFpr (s : State) (r : Reg) : Word := s.fpr.get r

def State.writeFpr (s : State) (r : Reg) (v : Word) : State := { s with fpr := s.fpr.set r v }

/-- `pc <- pc + 4` modulo 2^64, the end of every instruction that completes (R23 (b)). -/
def State.advancePc (s : State) : State := { s with pc := s.pc + 4#64 }

/-! ### Raising (R140) -/

/-- `raise X(info)` as the outcome of a step: fault or refusal, by the kind of X (R140's table). Nothing is written: the
outcome carries no state. -/
def raise (x : Stop) : Host.Outcome State Fault Refusal :=
  match x with
  | .fault f   => .fault f
  | .refusal r => .refused r

/-- Whether the stop is one of the six outcomes of R140, which the fault record keeps. The other three say that there is no step
to take (R161, R163). Every refusal is recorded: R142, R143. -/
def Stop.recorded : Stop → Bool
  | .fault (.invalidForm _)    => true
  | .fault (.alignmentFault _) => true
  | .fault (.storageFault _)   => true
  | .fault (.unwritten _)      => true
  | .fault .runEnded           => false
  | .fault .haltedByFault      => false
  | .fault (.pcOutsideText _)  => false
  | .refusal _                 => true

/-- Append (X, info, pc) to the fault record, if X is one of the six outcomes; nothing else changes (R29, R140). -/
def State.record (s : State) (x : Stop) : State :=
  if x.recorded then { s with faultRecord := s.faultRecord ++ [⟨x, s.pc⟩] } else s

/-- The state a step from s leaves, given its outcome: the next state of a step that completes; s with the raise recorded of one
that raises (R140). -/
def State.after (s : State) : Host.Outcome State Fault Refusal → State
  | .next t    => t
  | .fault f   => s.record (.fault f)
  | .refused r => s.record (.refusal r)

/-! ### Bytes of memory (R26) -/

/-- The byte at an address, none if nothing has written it (R30). -/
def Memory.read? : Memory → Nat → Option Byte
  | [], _ => none
  | (k, b) :: m, a => if k = a then some b else Memory.read? m a

/-- Write one byte, keeping the addresses strictly rising. -/
def Memory.write : Memory → Nat → Byte → Memory
  | [], a, b => [(a, b)]
  | (k, c) :: m, a, b =>
    if a < k then (a, b) :: (k, c) :: m
    else if k = a then (a, b) :: m
    else (k, c) :: Memory.write m a b

/-! ### Addresses of an access (R32, R33, R36) -/

/-- b_i = (a + i) mod 2^64, the address of byte i of an access at a. -/
def byteAddr (a : Addr) (i : Nat) : Nat := (a.toNat + i) % 2 ^ 64

/-- The access is misaligned and MISALIGNED says to fault (R32 (1), R34). -/
def State.misalignedFaults (s : State) (a : Addr) (n : Nat) : Bool :=
  s.launch.misaligned == .fault && a.toNat % n != 0

/-- Every byte of an access of n bytes at a exists (R32 (2), R33 (2)). -/
def State.mapped (s : State) (a : Addr) (n : Nat) : Bool :=
  (List.range n).all (fun i => s.launch.admits (byteAddr a i))

/-- Some byte of an access of n bytes at a lies in the program text (R33 (3)). -/
def State.touchesText (s : State) (a : Addr) (n : Nat) : Bool :=
  (List.range n).any (fun i => s.launch.inText (byteAddr a i))

/-! ### Byte order (R31) -/

/-- The number whose base-256 digits are the bytes, most significant first. -/
def bytesToNat : List Byte → Nat
  | [] => 0
  | b :: bs => b.toNat * 256 ^ bs.length + bytesToNat bs

/-- The value of the bytes of an access, lowest address first (R32 (4)). -/
def assemble (order : ByteOrder) (n : Nat) (bytes : List Byte) : BitVec (8 * n) :=
  match order with
  | .be => BitVec.ofNat (8 * n) (bytesToNat bytes)
  | .le => BitVec.ofNat (8 * n) (bytesToNat bytes.reverse)

/-- The byte of the n-byte value v that stands at offset i of an access (R31). -/
def byteOf (order : ByteOrder) (n : Nat) (v : BitVec (8 * n)) (i : Nat) : Byte :=
  match order with
  | .be => v.extractLsb' (8 * (n - 1 - i)) 8
  | .le => v.extractLsb' (8 * i) 8

/-! ### The bytes that a load reads (R26, R45) -/

/-- The byte of the program text at an address, its word laid out under BYTE_ORDER; none outside the text (R31, R45). -/
def textByte? (l : Launch) (addr : Nat) : Option Byte :=
  if l.inText addr then
    (l.text[(addr - l.textBase.toNat) / 4]?).map fun w => byteOf l.byteOrder 4 w ((addr - l.textBase.toNat) % 4)
  else none

/-- The byte a load reads at an address: the one memory holds. In the program text that byte must be the text's own: "a launch
that does not provide them gets StorageFault or Unwritten" (R45; log 18). -/
def State.byte? (s : State) (addr : Nat) : Option Byte :=
  match textByte? s.launch addr with
  | none   => Memory.read? s.mem addr
  | some t => if Memory.read? s.mem addr = some t then some t else none

/-! ### MemRead and MemWrite (R32, R33) -/

/-- The bytes of an access from offset i on, `count` of them, lowest address first; the address of the first one without a
value for a load, if there is one (R32 (3), R45). -/
def readBytes (s : State) (a : Addr) (i : Nat) : Nat → Except Fault (List Byte)
  | 0 => .ok []
  | count + 1 =>
    match s.byte? (byteAddr a i) with
    | none   => .error (.unwritten (BitVec.ofNat 64 (byteAddr a i)))
    | some b =>
      match readBytes s a (i + 1) count with
      | .error f => .error f
      | .ok bs   => .ok (b :: bs)

/-- MemRead(a, n), n in {1, 2, 4, 8} (R32). -/
def memRead (s : State) (a : Addr) (n : Nat) : Except Stop (BitVec (8 * n)) :=
  if s.misalignedFaults a n then .error (.fault (.alignmentFault a))
  else if !s.mapped a n then .error (.fault (.storageFault a))
  else
    match readBytes s a 0 n with
    | .error f => .error (.fault f)
    | .ok bs   => .ok (assemble s.launch.byteOrder n bs)

/-- Write the bytes of v from offset i on, `count` of them (R33 (4)). -/
def writeBytes (order : ByteOrder) (a : Addr) (n : Nat) (v : BitVec (8 * n)) (i : Nat) : Nat → Memory → Memory
  | 0, m => m
  | count + 1, m => writeBytes order a n v (i + 1) count (Memory.write m (byteAddr a i) (byteOf order n v i))

/-- MemWrite(a, n, v), n in {1, 2, 4, 8}: all n bytes, or none and a raise (R33). -/
def memWrite (s : State) (a : Addr) (n : Nat) (v : BitVec (8 * n)) : Except Stop State :=
  if s.misalignedFaults a n then .error (.fault (.alignmentFault a))
  else if !s.mapped a n then .error (.fault (.storageFault a))
  else if s.touchesText a n then .error (.refusal .storeToText)
  else .ok { s with mem := writeBytes s.launch.byteOrder a n v 0 n s.mem }

/-! ### The program text: fetch and the end of a run (R161, R163) -/

/-- pc = TEXT_BASE + 4*len(TEXT), modulo 2^64 as pc is (R23, R163; log 14). -/
def State.atTextEnd (s : State) : Bool :=
  s.pc == s.launch.textBase + BitVec.ofNat 64 (4 * s.launch.text.length)

/-- A final state: at the end of the text with an empty fault record (R163). -/
def State.isFinal (s : State) : Bool := s.atTextEnd && s.faultRecord.isEmpty

/-- The distance of pc from TEXT_BASE. -/
def State.textOffset (s : State) : Nat := (s.pc - s.launch.textBase).toNat

/-- insn = TEXT[(pc - TEXT_BASE) / 4] (R161); none where pc is not the address of a word of TEXT. Fetch never reads MEM
(log 18). -/
def State.fetch (s : State) : Option Insn :=
  if s.textOffset % 4 = 0 then s.launch.text[s.textOffset / 4]? else none

/-- The instruction at pc: fetched (R161) and decoded (R67), or the stop that there is instead. -/
def State.current (s : State) : Except Stop Instr :=
  if !s.faultRecord.isEmpty then .error (.fault .haltedByFault)
  else if s.isFinal then .error (.fault .runEnded)
  else
    match s.fetch with
    | none => .error (.fault (.pcOutsideText s.pc))
    | some w =>
      match decode s.launch.opcodes w with
      | .error _ => .error (.refusal (.unrecognised w))
      | .ok i    => .ok i

/-- The launch parameters with the word w at address pc: in place of the word there, after the last word, or as a text of its own
(log 6). -/
def State.launchWithWord (s : State) (w : Insn) : Launch :=
  if s.textOffset % 4 = 0 ∧ s.textOffset / 4 < s.launch.text.length then
    { s.launch with text := s.launch.text.set (s.textOffset / 4) w }
  else if s.atTextEnd then
    { s.launch with text := s.launch.text ++ [w] }
  else
    { s.launch with textBase := s.pc, text := [w] }

end Sys2Proof.Machine
end

