-- ==== Sys2Proof/Machine/Operands.lean ====
section
/-! DEFINITION. The operand forms: the increment of each format (spec/30_encoding.md R56, R57, and GPR[RB] for the X-Form),
the extension of a loaded value, and the low bytes of a stored register. All are read from the state the instruction begins in
(spec/00_scope.md R10; log 11). The instruction set has no flag (spec/10_state.md R24), so there is no flag computation. -/

namespace Sys2Proof.Machine

/-- D-Form: sext_64(D), any value from -32768 to 32767 (R56). -/
def incD (d : BitVec 16) : Word := d.signExtend 64

/-- DS-Form: sext_64(DS || 0b00), a multiple of 4 (R57). -/
def incDS (ds : BitVec 14) : Word := (ds ++ 0#2).signExtend 64

/-- X-Form: GPR[RB], any register, GPR[0] included (R10, R21, R70). -/
def incX (s : State) (rb : Reg) : Word := s.readGpr rb

/-- "and Zero": zext_64 (R12, R70). -/
def zext {n : Nat} (m : BitVec n) : Word := m.setWidth 64

/-- "Algebraic": sext_64 (R12, R70). -/
def sext {n : Nat} (m : BitVec n) : Word := m.signExtend 64

/-- The low-order n bytes of a register, data[8*n-1 : 0] (R85). -/
def lowBytes (n : Nat) (v : Word) : BitVec (8 * n) := v.extractLsb' 0 (8 * n)

end Sys2Proof.Machine
end

