-- ==== Sys2Proof/Machine/FixedLoad.lean ====
section
/-! DEFINITION. The 11 fixed-point loads with post-update (spec/40_fixed_load_postupdate.md R70 to R81). -/

namespace Sys2Proof.Machine

/-- The template R70: n bytes at the OLD base go through `ext` into RT, then RA becomes base + inc. `insn` is the word an
invalid form records (R141). -/
def fixedLoad (insn : Insn) (n : Nat) (ext : BitVec (8 * n) → Word) (rt ra : Reg) (inc : Word) (s : State) :
    Host.Outcome State Fault Refusal :=
  if ra = 0 ∨ ra = rt then raise (.fault (.invalidForm insn))
  else
    match memRead s (s.readGpr ra) n with
    | .error x => raise x
    | .ok m    => .next (((s.writeGpr rt (ext m)).writeGpr ra (s.readGpr ra + inc)).advancePc)

/-- R71. -/
def execLbzup (rt ra : Reg) (d : BitVec 16) (s : State) : Host.Outcome State Fault Refusal :=
  fixedLoad (wordOf s.launch.opcodes (.lbzup rt ra d)) 1 zext rt ra (incD d) s

/-- R72. -/
def execLbzupx (rt ra rb : Reg) (s : State) : Host.Outcome State Fault Refusal :=
  fixedLoad (wordOf s.launch.opcodes (.lbzupx rt ra rb)) 1 zext rt ra (incX s rb) s

/-- R73. -/
def execLhzup (rt ra : Reg) (d : BitVec 16) (s : State) : Host.Outcome State Fault Refusal :=
  fixedLoad (wordOf s.launch.opcodes (.lhzup rt ra d)) 2 zext rt ra (incD d) s

/-- R74. -/
def execLhzupx (rt ra rb : Reg) (s : State) : Host.Outcome State Fault Refusal :=
  fixedLoad (wordOf s.launch.opcodes (.lhzupx rt ra rb)) 2 zext rt ra (incX s rb) s

/-- R75. -/
def execLhaup (rt ra : Reg) (d : BitVec 16) (s : State) : Host.Outcome State Fault Refusal :=
  fixedLoad (wordOf s.launch.opcodes (.lhaup rt ra d)) 2 sext rt ra (incD d) s

/-- R76. -/
def execLhaupx (rt ra rb : Reg) (s : State) : Host.Outcome State Fault Refusal :=
  fixedLoad (wordOf s.launch.opcodes (.lhaupx rt ra rb)) 2 sext rt ra (incX s rb) s

/-- R77. -/
def execLwzup (rt ra : Reg) (d : BitVec 16) (s : State) : Host.Outcome State Fault Refusal :=
  fixedLoad (wordOf s.launch.opcodes (.lwzup rt ra d)) 4 zext rt ra (incD d) s

/-- R78. -/
def execLwzupx (rt ra rb : Reg) (s : State) : Host.Outcome State Fault Refusal :=
  fixedLoad (wordOf s.launch.opcodes (.lwzupx rt ra rb)) 4 zext rt ra (incX s rb) s

/-- R79. -/
def execLwaupx (rt ra rb : Reg) (s : State) : Host.Outcome State Fault Refusal :=
  fixedLoad (wordOf s.launch.opcodes (.lwaupx rt ra rb)) 4 sext rt ra (incX s rb) s

/-- R80. -/
def execLdup (rt ra : Reg) (ds : BitVec 14) (s : State) : Host.Outcome State Fault Refusal :=
  fixedLoad (wordOf s.launch.opcodes (.ldup rt ra ds)) 8 zext rt ra (incDS ds) s

/-- R81. -/
def execLdupx (rt ra rb : Reg) (s : State) : Host.Outcome State Fault Refusal :=
  fixedLoad (wordOf s.launch.opcodes (.ldupx rt ra rb)) 8 zext rt ra (incX s rb) s

end Sys2Proof.Machine
end

