-- ==== Sys2Proof/Machine/FixedStore.lean ====
section
/-! DEFINITION. The 8 fixed-point stores with post-update (spec/41_fixed_store_postupdate.md R85 to R93). -/

namespace Sys2Proof.Machine

/-- The template R85: the low n bytes of RS go to the OLD base, then RA becomes base + inc. `insn` is the word an invalid form
records (R141). -/
def fixedStore (insn : Insn) (n : Nat) (rs ra : Reg) (inc : Word) (s : State) : Host.Outcome State Fault Refusal :=
  if ra = 0 then raise (.fault (.invalidForm insn))
  else
    match memWrite s (s.readGpr ra) n (lowBytes n (s.readGpr rs)) with
    | .error x => raise x
    | .ok t    => .next ((t.writeGpr ra (s.readGpr ra + inc)).advancePc)

/-- R86. -/
def execStbup (rs ra : Reg) (d : BitVec 16) (s : State) : Host.Outcome State Fault Refusal :=
  fixedStore (wordOf s.launch.opcodes (.stbup rs ra d)) 1 rs ra (incD d) s

/-- R87. -/
def execStbupx (rs ra rb : Reg) (s : State) : Host.Outcome State Fault Refusal :=
  fixedStore (wordOf s.launch.opcodes (.stbupx rs ra rb)) 1 rs ra (incX s rb) s

/-- R88. -/
def execSthup (rs ra : Reg) (d : BitVec 16) (s : State) : Host.Outcome State Fault Refusal :=
  fixedStore (wordOf s.launch.opcodes (.sthup rs ra d)) 2 rs ra (incD d) s

/-- R89. -/
def execSthupx (rs ra rb : Reg) (s : State) : Host.Outcome State Fault Refusal :=
  fixedStore (wordOf s.launch.opcodes (.sthupx rs ra rb)) 2 rs ra (incX s rb) s

/-- R90. -/
def execStwup (rs ra : Reg) (d : BitVec 16) (s : State) : Host.Outcome State Fault Refusal :=
  fixedStore (wordOf s.launch.opcodes (.stwup rs ra d)) 4 rs ra (incD d) s

/-- R91. -/
def execStwupx (rs ra rb : Reg) (s : State) : Host.Outcome State Fault Refusal :=
  fixedStore (wordOf s.launch.opcodes (.stwupx rs ra rb)) 4 rs ra (incX s rb) s

/-- R92. -/
def execStdup (rs ra : Reg) (ds : BitVec 14) (s : State) : Host.Outcome State Fault Refusal :=
  fixedStore (wordOf s.launch.opcodes (.stdup rs ra ds)) 8 rs ra (incDS ds) s

/-- R93. -/
def execStdupx (rs ra rb : Reg) (s : State) : Host.Outcome State Fault Refusal :=
  fixedStore (wordOf s.launch.opcodes (.stdupx rs ra rb)) 8 rs ra (incX s rb) s

end Sys2Proof.Machine
end

