-- ==== Sys2Proof/Machine/FpConvert.lean ====
section
/-! DEFINITION. The conversions between single and double format (spec/42_fp_loadstore_postupdate.md R101, R102), the
recommended instances of the parameters FpSingleToDouble and FpDoubleToSingle, and the functions those parameters name
(log 10). They raise nothing. -/

namespace Sys2Proof.Machine

/-- The position k of the highest set bit of a non-zero fraction: 2^k <= f < 2^(k+1) (R101). -/
def topBit (f : BitVec 23) : Nat := Nat.log2 f.toNat

/-- The recommended FpSingleToDouble (R101): exact; a denormal single becomes a normal double, a signalling NaN stays signalling. -/
def fpSingleToDouble (w : BitVec 32) : Word :=
  let s : BitVec 1 := w.extractLsb' 31 1
  let e : BitVec 8 := w.extractLsb' 23 8
  let f : BitVec 23 := w.extractLsb' 0 23
  if e = 255#8 then s ++ 0x7FF#11 ++ f ++ 0#29
  else if e ≠ 0#8 then s ++ (e.setWidth 11 + 896#11) ++ f ++ 0#29
  else if f = 0#23 then s ++ 0#63
  else
    s ++ BitVec.ofNat 11 (topBit f + 874) ++
      BitVec.ofNat 52 ((f.toNat - 2 ^ topBit f) * 2 ^ (52 - topBit f))

/-- The recommended FpDoubleToSingle (R102): no rounding. None is the band in which the stored word is undefined: d is not zero and its
exponent field is below 874. -/
def fpDoubleToSingle (d : Word) : Option (BitVec 32) :=
  let s : BitVec 1 := d.extractLsb' 63 1
  let e : Nat := (d.extractLsb' 52 11).toNat
  let f : BitVec 52 := d.extractLsb' 0 52
  if e > 896 ∨ d.extractLsb' 0 63 = 0#63 then
    some (d.extractLsb' 62 2 ++ d.extractLsb' 29 30)
  else if 874 ≤ e then
    some (s ++ 0#8 ++ BitVec.ofNat 23 (((2 ^ 52 + f.toNat) >>> (897 - e)) >>> 29))
  else
    none

/-- The FpSingleToDouble of a launch (R5, R100). -/
def singleToDouble (l : Launch) (w : BitVec 32) : Word :=
  match l.fpConversions with
  | .recommended => fpSingleToDouble w
  | .other k     => Config.singleToDouble k w

/-- The FpDoubleToSingle of a launch (R5, R100); none where it leaves the word undefined. -/
def doubleToSingle (l : Launch) (d : Word) : Option (BitVec 32) :=
  match l.fpConversions with
  | .recommended => fpDoubleToSingle d
  | .other k     => Config.doubleToSingle k d

end Sys2Proof.Machine
end

