-- ==== Sys2Proof/Machine/FpLoadStore.lean ====
section
/-! DEFINITION. The 8 floating-point loads and stores with post-update (spec/42_fp_loadstore_postupdate.md R100 to R110). -/

namespace Sys2Proof.Machine

/-- The load template of R100: Refused first when ADMIT_FP is false; RA = 0 is the only invalid form. -/
def fpLoad (i : Instr) (n : Nat) (conv : BitVec (8 * n) → Word) (frt ra : Reg) (inc : Word) (s : State) :
    Host.Outcome State Fault Refusal :=
  if !s.launch.admitFp then raise (.refusal (.fpNotAdmitted i.mnemonic))
  else if ra = 0 then raise (.fault (.invalidForm (wordOf s.launch.opcodes i)))
  else
    match memRead s (s.readGpr ra) n with
    | .error x => raise x
    | .ok m    => .next (((s.writeFpr frt (conv m)).writeGpr ra (s.readGpr ra + inc)).advancePc)

/-- The store template of R100. `conv` gives the stored value and the state with the free values it drew. -/
def fpStore (i : Instr) (n : Nat) (conv : Word → State → BitVec (8 * n) × State) (frs ra : Reg) (inc : Word) (s : State) :
    Host.Outcome State Fault Refusal :=
  if !s.launch.admitFp then raise (.refusal (.fpNotAdmitted i.mnemonic))
  else if ra = 0 then raise (.fault (.invalidForm (wordOf s.launch.opcodes i)))
  else
    match memWrite (conv (s.readFpr frs) s).2 (s.readGpr ra) n (conv (s.readFpr frs) s).1 with
    | .error x => raise x
    | .ok t    => .next ((t.writeGpr ra (s.readGpr ra + inc)).advancePc)

/-- Double precision: the identity on 64 bits (R100). -/
def doubleToStore (d : Word) (s : State) : BitVec (8 * 8) × State := (d, s)

/-- Single precision: FpDoubleToSingle of the launch, and a free value where that is undefined (R102, U7; log 8). -/
def singleToStore (d : Word) (s : State) : BitVec (8 * 4) × State :=
  match doubleToSingle s.launch d with
  | some w => (w, s)
  | none   => (Config.draw32 s.draws, { s with draws := s.draws + 1 })

/-- R103. -/
def execLfdup (frt ra : Reg) (d : BitVec 16) (s : State) : Host.Outcome State Fault Refusal :=
  fpLoad (.lfdup frt ra d) 8 zext frt ra (incD d) s

/-- R104. -/
def execLfsup (frt ra : Reg) (d : BitVec 16) (s : State) : Host.Outcome State Fault Refusal :=
  fpLoad (.lfsup frt ra d) 4 (singleToDouble s.launch) frt ra (incD d) s

/-- R105. -/
def execLfdupx (frt ra rb : Reg) (s : State) : Host.Outcome State Fault Refusal :=
  fpLoad (.lfdupx frt ra rb) 8 zext frt ra (incX s rb) s

/-- R106 (source spelling lsdupx). -/
def execLfsupx (frt ra rb : Reg) (s : State) : Host.Outcome State Fault Refusal :=
  fpLoad (.lfsupx frt ra rb) 4 (singleToDouble s.launch) frt ra (incX s rb) s

/-- R107. -/
def execStfdup (frs ra : Reg) (d : BitVec 16) (s : State) : Host.Outcome State Fault Refusal :=
  fpStore (.stfdup frs ra d) 8 doubleToStore frs ra (incD d) s

/-- R108. -/
def execStfsup (frs ra : Reg) (d : BitVec 16) (s : State) : Host.Outcome State Fault Refusal :=
  fpStore (.stfsup frs ra d) 4 singleToStore frs ra (incD d) s

/-- R109. -/
def execStfdupx (frs ra rb : Reg) (s : State) : Host.Outcome State Fault Refusal :=
  fpStore (.stfdupx frs ra rb) 8 doubleToStore frs ra (incX s rb) s

/-- R110. -/
def execStfsupx (frs ra rb : Reg) (s : State) : Host.Outcome State Fault Refusal :=
  fpStore (.stfsupx frs ra rb) 4 singleToStore frs ra (incX s rb) s

end Sys2Proof.Machine
end

