-- ==== Sys2Proof/Machine/Shifted.lean ====
section
/-! DEFINITION. The 14 shifted mnemonics (spec/43_shifted_postupdate.md R115 to R129): the source lists their names and the
spec gives them no operands, no encoding and no meaning, so each is refused by name, whatever the state (log 12). No word
decodes to one of them. -/

namespace Sys2Proof.Machine

/-- Refused(mnemonic: listed in ls011 without semantics) (R115 (d), R143 (b)). -/
def listedOnly (mnemonic : String) : Host.Outcome State Fault Refusal :=
  raise (.refusal (.noSemantics mnemonic))

/-- R116. -/
def execLbzuspx (_s : State) : Host.Outcome State Fault Refusal := listedOnly "lbzuspx"

/-- R117. -/
def execLhzuspx (_s : State) : Host.Outcome State Fault Refusal := listedOnly "lhzuspx"

/-- R118. -/
def execLhauspx (_s : State) : Host.Outcome State Fault Refusal := listedOnly "lhauspx"

/-- R119. -/
def execLwzuspx (_s : State) : Host.Outcome State Fault Refusal := listedOnly "lwzuspx"

/-- R120. -/
def execLwauspx (_s : State) : Host.Outcome State Fault Refusal := listedOnly "lwauspx"

/-- R121. -/
def execLduspx (_s : State) : Host.Outcome State Fault Refusal := listedOnly "lduspx"

/-- R122. -/
def execStbuspx (_s : State) : Host.Outcome State Fault Refusal := listedOnly "stbuspx"

/-- R123. -/
def execSthuspx (_s : State) : Host.Outcome State Fault Refusal := listedOnly "sthuspx"

/-- R124. -/
def execStwuspx (_s : State) : Host.Outcome State Fault Refusal := listedOnly "stwuspx"

/-- R125. -/
def execStduspx (_s : State) : Host.Outcome State Fault Refusal := listedOnly "stduspx"

/-- R126. -/
def execLfdupsx (_s : State) : Host.Outcome State Fault Refusal := listedOnly "lfdupsx"

/-- R127. -/
def execLfsupsx (_s : State) : Host.Outcome State Fault Refusal := listedOnly "lfsupsx"

/-- R128. -/
def execStfdupsx (_s : State) : Host.Outcome State Fault Refusal := listedOnly "stfdupsx"

/-- R129. -/
def execStfsupsx (_s : State) : Host.Outcome State Fault Refusal := listedOnly "stfsupsx"

end Sys2Proof.Machine
end

