-- ==== Sys2Proof/Machine/Dispatch.lean ====
section
/-! DEFINITION. The meaning of each instruction, one arm per constructor. -/

namespace Sys2Proof.Machine

def exec (i : Instr) (s : State) : Host.Outcome State Fault Refusal :=
  match i with
  | .lbzup rt ra d => Sys2Proof.Machine.execLbzup rt ra d s
  | .lbzupx rt ra rb => Sys2Proof.Machine.execLbzupx rt ra rb s
  | .lhzup rt ra d => Sys2Proof.Machine.execLhzup rt ra d s
  | .lhzupx rt ra rb => Sys2Proof.Machine.execLhzupx rt ra rb s
  | .lhaup rt ra d => Sys2Proof.Machine.execLhaup rt ra d s
  | .lhaupx rt ra rb => Sys2Proof.Machine.execLhaupx rt ra rb s
  | .lwzup rt ra d => Sys2Proof.Machine.execLwzup rt ra d s
  | .lwzupx rt ra rb => Sys2Proof.Machine.execLwzupx rt ra rb s
  | .lwaupx rt ra rb => Sys2Proof.Machine.execLwaupx rt ra rb s
  | .ldup rt ra ds => Sys2Proof.Machine.execLdup rt ra ds s
  | .ldupx rt ra rb => Sys2Proof.Machine.execLdupx rt ra rb s
  | .stbup rs ra d => Sys2Proof.Machine.execStbup rs ra d s
  | .stbupx rs ra rb => Sys2Proof.Machine.execStbupx rs ra rb s
  | .sthup rs ra d => Sys2Proof.Machine.execSthup rs ra d s
  | .sthupx rs ra rb => Sys2Proof.Machine.execSthupx rs ra rb s
  | .stwup rs ra d => Sys2Proof.Machine.execStwup rs ra d s
  | .stwupx rs ra rb => Sys2Proof.Machine.execStwupx rs ra rb s
  | .stdup rs ra ds => Sys2Proof.Machine.execStdup rs ra ds s
  | .stdupx rs ra rb => Sys2Proof.Machine.execStdupx rs ra rb s
  | .lfdup frt ra d => Sys2Proof.Machine.execLfdup frt ra d s
  | .lfsup frt ra d => Sys2Proof.Machine.execLfsup frt ra d s
  | .lfdupx frt ra rb => Sys2Proof.Machine.execLfdupx frt ra rb s
  | .lfsupx frt ra rb => Sys2Proof.Machine.execLfsupx frt ra rb s
  | .stfdup frs ra d => Sys2Proof.Machine.execStfdup frs ra d s
  | .stfsup frs ra d => Sys2Proof.Machine.execStfsup frs ra d s
  | .stfdupx frs ra rb => Sys2Proof.Machine.execStfdupx frs ra rb s
  | .stfsupx frs ra rb => Sys2Proof.Machine.execStfsupx frs ra rb s
  | .lbzuspx => Sys2Proof.Machine.execLbzuspx s
  | .lhzuspx => Sys2Proof.Machine.execLhzuspx s
  | .lhauspx => Sys2Proof.Machine.execLhauspx s
  | .lwzuspx => Sys2Proof.Machine.execLwzuspx s
  | .lwauspx => Sys2Proof.Machine.execLwauspx s
  | .lduspx => Sys2Proof.Machine.execLduspx s
  | .stbuspx => Sys2Proof.Machine.execStbuspx s
  | .sthuspx => Sys2Proof.Machine.execSthuspx s
  | .stwuspx => Sys2Proof.Machine.execStwuspx s
  | .stduspx => Sys2Proof.Machine.execStduspx s
  | .lfdupsx => Sys2Proof.Machine.execLfdupsx s
  | .lfsupsx => Sys2Proof.Machine.execLfsupsx s
  | .stfdupsx => Sys2Proof.Machine.execStfdupsx s
  | .stfsupsx => Sys2Proof.Machine.execStfsupsx s

end Sys2Proof.Machine
end

