-- ==== Sys2Proof/Machine/Step.lean ====
section
/-! DEFINITION. One step of the one agent (spec/70_reset_and_hazards.md R161, R163; spec/60_exceptions.md R140). -/

namespace Sys2Proof.Machine

/-- A step: no step after a raise or at the end of the text (R163), else fetch, decode and execute (R161). -/
def step (s : State) : Host.Outcome State Fault Refusal :=
  match s.current with
  | .error x => raise x
  | .ok i    => exec i s

/-- The same step as a total function on states, with the fault record kept: a step that raises X(info) appends
(X, info, pc) and changes nothing else (R29, R140). -/
def transition (s : State) : State := s.after (step s)

/-- s with one instruction word where the next fetch takes it, and no fault recorded, so that the next step runs it: what the
loading of a program into TEXT does (R160 (b), R164; log 6). -/
def State.withFetchWord (s : State) (nbits w : Nat) : State :=
  { s with launch := s.launchWithWord (tableWord nbits w), faultRecord := [] }

end Sys2Proof.Machine
end

