-- ==== Sys2Proof/Safety.lean ====
section
/-! DEFINITION. The terms in which statements about the machine are made: what an access needs, which registers and bytes an
instruction may write, and the invariant of a run. -/

namespace Sys2Proof

/-- The eight floating-point instructions (spec/42_fp_loadstore_postupdate.md R100). -/
def Instr.isFp : Instr → Bool
  | .lfdup .. | .lfsup .. | .lfdupx .. | .lfsupx .. | .stfdup .. | .stfsup .. | .stfdupx .. | .stfsupx .. => true
  | _ => false

/-- The base register and the width in bytes of a load (spec/20_memory.md R37). -/
def Instr.loadAccess : Instr → Option (Reg × Nat)
  | .lbzup _ ra _ | .lbzupx _ ra _ => some (ra, 1)
  | .lhzup _ ra _ | .lhzupx _ ra _ | .lhaup _ ra _ | .lhaupx _ ra _ => some (ra, 2)
  | .lwzup _ ra _ | .lwzupx _ ra _ | .lwaupx _ ra _ | .lfsup _ ra _ | .lfsupx _ ra _ => some (ra, 4)
  | .ldup _ ra _ | .ldupx _ ra _ | .lfdup _ ra _ | .lfdupx _ ra _ => some (ra, 8)
  | _ => none

/-- The base register and the width in bytes of a store (spec/20_memory.md R37). -/
def Instr.storeAccess : Instr → Option (Reg × Nat)
  | .stbup _ ra _ | .stbupx _ ra _ => some (ra, 1)
  | .sthup _ ra _ | .sthupx _ ra _ => some (ra, 2)
  | .stwup _ ra _ | .stwupx _ ra _ | .stfsup _ ra _ | .stfsupx _ ra _ => some (ra, 4)
  | .stdup _ ra _ | .stdupx _ ra _ | .stfdup _ ra _ | .stfdupx _ ra _ => some (ra, 8)
  | _ => none

/-- The general register a fixed-point load writes besides its base (spec/10_state.md R21). -/
def Instr.gprTarget : Instr → Option Reg
  | .lbzup rt _ _ | .lbzupx rt _ _ | .lhzup rt _ _ | .lhzupx rt _ _ | .lhaup rt _ _ | .lhaupx rt _ _
  | .lwzup rt _ _ | .lwzupx rt _ _ | .lwaupx rt _ _ | .ldup rt _ _ | .ldupx rt _ _ => some rt
  | _ => none

/-- The floating-point register a floating-point load writes (spec/10_state.md R21, R22). -/
def Instr.fprTarget : Instr → Option Reg
  | .lfdup frt _ _ | .lfsup frt _ _ | .lfdupx frt _ _ | .lfsupx frt _ _ => some frt
  | _ => none

/-- The floating-point register a floating-point store reads (spec/10_state.md R21, R22). -/
def Instr.fprSource : Instr → Option Reg
  | .stfdup frs _ _ | .stfsup frs _ _ | .stfdupx frs _ _ | .stfsupx frs _ _ => some frs
  | _ => none

/-- The program's place: TEXT_BASE is a multiple of 4 and the text ends inside the address space
(spec/70_reset_and_hazards.md R160 (b)). -/
abbrev Launch.placed (l : Launch) : Prop := l.textBase.toNat % 4 = 0 ∧ l.textEnd ≤ 2 ^ 64

/-- What R160 (a) and (b) ask of the parameters of a launch: an allocation as R58 has it, and a program of at least one word in
its place. (State.reset, where no program is loaded yet, is no launch: log 6.) -/
abbrev Launch.wf (l : Launch) : Prop := l.opcodes.wf ∧ l.text ≠ [] ∧ l.placed

namespace Machine

/-- The bytes that memory names in the program text are the text's bytes under BYTE_ORDER (spec/20_memory.md R45). -/
abbrev agreesWithText (l : Launch) (m : Memory) : Prop :=
  ∀ c ∈ m, textByte? l c.1 = none ∨ textByte? l c.1 = some c.2

/-- The access is not stopped by its alignment or by MEMORY_MAP (spec/20_memory.md R34, R35). -/
abbrev Accessible (s : State) (a : Addr) (n : Nat) : Prop :=
  (s.launch.misaligned = .fault → a.toNat % n = 0) ∧ ∀ k < n, s.launch.admits (byteAddr a k) = true

/-- An access from which a load gets a value (spec/20_memory.md R32). -/
abbrev Readable (s : State) (a : Addr) (n : Nat) : Prop :=
  Accessible s a n ∧ ∀ k < n, (s.byte? (byteAddr a k)).isSome = true

/-- An access that a store performs (spec/20_memory.md R33). -/
abbrev Writable (s : State) (a : Addr) (n : Nat) : Prop :=
  Accessible s a n ∧ ∀ k < n, s.launch.inText (byteAddr a k) = false

/-- A launch state (R160 (a) to (f)): parameters and a program as they must be, pc at TEXT_BASE, memory in canonical form that
names only bytes of MEMORY_MAP and, in the program text, only the text's own bytes (R45), and an empty fault record. Every register is named (log 1, log 2). -/
structure State.IsLaunch (s : State) : Prop where
  params   : s.launch.wf
  atBase   : s.pc = s.launch.textBase
  memWf    : Memory.wf s.mem
  memNamed : ∀ c ∈ s.mem, s.launch.admits c.1 = true
  memText  : agreesWithText s.launch s.mem
  noFault  : s.faultRecord = []

/-- The invariant of a run: the allocation is as R58 has it, the program has its place, memory is in
canonical form, inside MEMORY_MAP (R160 (e)) and, in the program text, holds no other byte than the text's (R45), pc is the
address of a word of the text or the end of it (R23, R161), and the fault record has at most the one entry of the raise that
ended the run (R140). -/
structure State.Inv (s : State) : Prop where
  opcodesWf : s.launch.opcodes.wf
  placed    : s.launch.placed
  memWf     : Memory.wf s.mem
  memMapped : ∀ c ∈ s.mem, s.launch.admits c.1 = true
  memText   : agreesWithText s.launch s.mem
  pcInText  : ∃ k ≤ s.launch.text.length, s.pc = s.launch.textBase + BitVec.ofNat 64 (4 * k)
  oneRaise  : s.faultRecord.length ≤ 1

/-- How many words of the text are still to run. -/
def State.remaining (s : State) : Nat := s.launch.text.length - s.textOffset / 4

/-- k transitions. -/
def transitions : Nat → State → State
  | 0, s => s
  | k + 1, s => transitions k (transition s)

end Machine

end Sys2Proof
end

