-- ==== Sys2Proof/Certificates/Slice0/Obligations.lean ====
section
/-! DEFINITION. The statements for the provers. Each docstring names the rule of spec/ it formalises; where that rule is one the
spec marks as its own decision (D<n> of spec/92_eei_decisions.md) or rests on a choice of the model (log <n>), it says so. -/

open Sys2Proof Sys2Proof.Machine

namespace Sys2Proof.Claims

/-- Table P0 as spec/30_encoding.md R59 prints it: mnemonic, match, mask. -/
def tableP0 : List (String × Insn × Insn) :=
  [ ("lwzup", 0x84000000#32, 0xFC000000#32), ("lbzup", 0x8C000000#32, 0xFC000000#32),
    ("stwup", 0x94000000#32, 0xFC000000#32), ("stbup", 0x9C000000#32, 0xFC000000#32),
    ("lhzup", 0xA4000000#32, 0xFC000000#32), ("lhaup", 0xAC000000#32, 0xFC000000#32),
    ("sthup", 0xB4000000#32, 0xFC000000#32), ("lfsup", 0xC4000000#32, 0xFC000000#32),
    ("lfdup", 0xCC000000#32, 0xFC000000#32), ("stfsup", 0xD4000000#32, 0xFC000000#32),
    ("stfdup", 0xDC000000#32, 0xFC000000#32), ("ldup", 0xE8000001#32, 0xFC000003#32),
    ("stdup", 0xF8000001#32, 0xFC000003#32), ("ldupx", 0x7C00006A#32, 0xFC0007FF#32),
    ("lwzupx", 0x7C00006E#32, 0xFC0007FF#32), ("lbzupx", 0x7C0000EE#32, 0xFC0007FF#32),
    ("stdupx", 0x7C00016A#32, 0xFC0007FF#32), ("stwupx", 0x7C00016E#32, 0xFC0007FF#32),
    ("stbupx", 0x7C0001EE#32, 0xFC0007FF#32), ("lhzupx", 0x7C00026E#32, 0xFC0007FF#32),
    ("lwaupx", 0x7C0002EA#32, 0xFC0007FF#32), ("lhaupx", 0x7C0002EE#32, 0xFC0007FF#32),
    ("sthupx", 0x7C00036E#32, 0xFC0007FF#32), ("lfsupx", 0x7C00046E#32, 0xFC0007FF#32),
    ("lfdupx", 0x7C0004EE#32, 0xFC0007FF#32), ("stfsupx", 0x7C00056E#32, 0xFC0007FF#32),
    ("stfdupx", 0x7C0005EE#32, 0xFC0007FF#32) ]

/-- The D-Form word, field by field (R52): primary opcode, RT, RA, D. -/
def dForm (po : BitVec 6) (rt ra : Reg) (d : BitVec 16) : Insn :=
  po ++ (BitVec.ofFin rt : BitVec 5) ++ (BitVec.ofFin ra : BitVec 5) ++ d

/-- The DS-Form word, field by field (R53): primary opcode, RT, RA, DS, XO. -/
def dsForm (po : BitVec 6) (rt ra : Reg) (ds : BitVec 14) (xo : BitVec 2) : Insn :=
  po ++ (BitVec.ofFin rt : BitVec 5) ++ (BitVec.ofFin ra : BitVec 5) ++ ds ++ xo

/-- The X-Form word, field by field (R54): the shared primary opcode, RT, RA, RB, XO, the reserved bit 0. -/
def xForm (po : BitVec 6) (rt ra rb : Reg) (xo : BitVec 10) : Insn :=
  po ++ (BitVec.ofFin rt : BitVec 5) ++ (BitVec.ofFin ra : BitVec 5) ++ (BitVec.ofFin rb : BitVec 5) ++ xo ++ 0#1

/-- The state after a fixed-point load: RT and RA written, pc past the instruction, all else as it was. -/
def afterLoad (s : State) (rt ra : Reg) (v inc : Word) : State :=
  { s with gpr := (s.gpr.set rt v).set ra (s.gpr.get ra + inc), pc := s.pc + 4#64 }

/-- The state after a floating-point load: FRT and RA written, pc past the instruction, all else as it was. -/
def afterFpLoad (s : State) (frt ra : Reg) (v inc : Word) : State :=
  { s with fpr := s.fpr.set frt v, gpr := s.gpr.set ra (s.gpr.get ra + inc), pc := s.pc + 4#64 }

/-- The state after a store: memory, RA and pc changed, all else as it was. -/
def afterStore (s : State) (mem : Memory) (ra : Reg) (inc : Word) : State :=
  { s with mem := mem, gpr := s.gpr.set ra (s.gpr.get ra + inc), pc := s.pc + 4#64 }

/-- The widths of an access (R32). -/
abbrev IsWidth (n : Nat) : Prop := n = 1 ∨ n = 2 ∨ n = 4 ∨ n = 8

/-- `mem` holds the n-byte value v at address a, in the byte order of s, and reads as s's memory at every other address. -/
def Stored (s : State) (mem : Memory) (a : Addr) (n : Nat) (v : BitVec (8 * n)) : Prop :=
  (∀ k < n, Memory.read? mem (byteAddr a k) = some (byteOf s.launch.byteOrder n v k)) ∧
  ∀ addr, (∀ k < n, addr ≠ byteAddr a k) → Memory.read? mem addr = Memory.read? s.mem addr

end Sys2Proof.Claims

open Sys2Proof.Claims

/-! ### Encoding -/

/-- R67: "Encoding is the inverse" of decoding. Every instruction that has an encoding, with every operand at every value its
fields admit (invalid forms too), has a word, and that word decodes to it, under every allocation OPCODES as R58 has it (D12;
P0 is one). -/
def Obligations.DecodeOfEncodeIsTheInstruction : Prop :=
  ∀ (ops : Opcodes) (i : Instr), ops.wf → i.encodable = true → ∃ w, encode ops i = some w ∧ decode ops w = .ok i

/-- R67, the other direction: a word that decodes is the encoding of what it decodes to, so decoding drops no bit; and it never
decodes to a shifted mnemonic (R115 (c)). Under every allocation, an overlapping one too. -/
def Obligations.EncodeOfDecodeIsTheWord : Prop :=
  ∀ (ops : Opcodes) (w : Insn) (i : Instr), decode ops w = .ok i → encode ops i = some w ∧ i.encodable = true

/-- R59: "an instruction word w is the instruction iff w AND mask = match", for each of the 27 rows as the spec prints them
(the spec's provisional table, D12, log 9). -/
def Obligations.WordDecodesAsItsTableRow : Prop :=
  ∀ row ∈ tableP0, ∀ w : Insn, w &&& row.2.2 = row.2.1 ↔ ∃ i, decode Opcodes.p0 w = .ok i ∧ i.mnemonic = row.1

/-- R52, R53, R54, R58: under every allocation OPCODES as R58 has it (13 primary opcodes of their own, one shared by the indexed
forms), for each of the 27 instructions the word laid out field by field, with every operand value, decodes to that instruction
with those operands. -/
def Obligations.FieldLayoutsDecode : Prop :=
  ∀ (ops : Opcodes) (rt ra rb : Reg) (d : BitVec 16) (ds : BitVec 14), ops.wf →
    decode ops (dForm ops.lwzup rt ra d) = .ok (.lwzup rt ra d) ∧
    decode ops (dForm ops.lbzup rt ra d) = .ok (.lbzup rt ra d) ∧
    decode ops (dForm ops.stwup rt ra d) = .ok (.stwup rt ra d) ∧
    decode ops (dForm ops.stbup rt ra d) = .ok (.stbup rt ra d) ∧
    decode ops (dForm ops.lhzup rt ra d) = .ok (.lhzup rt ra d) ∧
    decode ops (dForm ops.lhaup rt ra d) = .ok (.lhaup rt ra d) ∧
    decode ops (dForm ops.sthup rt ra d) = .ok (.sthup rt ra d) ∧
    decode ops (dForm ops.lfsup rt ra d) = .ok (.lfsup rt ra d) ∧
    decode ops (dForm ops.lfdup rt ra d) = .ok (.lfdup rt ra d) ∧
    decode ops (dForm ops.stfsup rt ra d) = .ok (.stfsup rt ra d) ∧
    decode ops (dForm ops.stfdup rt ra d) = .ok (.stfdup rt ra d) ∧
    decode ops (dsForm ops.ldup rt ra ds ops.ldupXo) = .ok (.ldup rt ra ds) ∧
    decode ops (dsForm ops.stdup rt ra ds ops.stdupXo) = .ok (.stdup rt ra ds) ∧
    decode ops (xForm ops.indexed rt ra rb ops.ldupx) = .ok (.ldupx rt ra rb) ∧
    decode ops (xForm ops.indexed rt ra rb ops.lwzupx) = .ok (.lwzupx rt ra rb) ∧
    decode ops (xForm ops.indexed rt ra rb ops.lbzupx) = .ok (.lbzupx rt ra rb) ∧
    decode ops (xForm ops.indexed rt ra rb ops.stdupx) = .ok (.stdupx rt ra rb) ∧
    decode ops (xForm ops.indexed rt ra rb ops.stwupx) = .ok (.stwupx rt ra rb) ∧
    decode ops (xForm ops.indexed rt ra rb ops.stbupx) = .ok (.stbupx rt ra rb) ∧
    decode ops (xForm ops.indexed rt ra rb ops.lhzupx) = .ok (.lhzupx rt ra rb) ∧
    decode ops (xForm ops.indexed rt ra rb ops.lwaupx) = .ok (.lwaupx rt ra rb) ∧
    decode ops (xForm ops.indexed rt ra rb ops.lhaupx) = .ok (.lhaupx rt ra rb) ∧
    decode ops (xForm ops.indexed rt ra rb ops.sthupx) = .ok (.sthupx rt ra rb) ∧
    decode ops (xForm ops.indexed rt ra rb ops.lfsupx) = .ok (.lfsupx rt ra rb) ∧
    decode ops (xForm ops.indexed rt ra rb ops.lfdupx) = .ok (.lfdupx rt ra rb) ∧
    decode ops (xForm ops.indexed rt ra rb ops.stfsupx) = .ok (.stfsupx rt ra rb) ∧
    decode ops (xForm ops.indexed rt ra rb ops.stfdupx) = .ok (.stfdupx rt ra rb)

/-- R62, R63, R142 (D20): a word that matches no row of P0 is unrecognised under P0; under every allocation as R58 has it so is
an X-Form word (of the shared primary opcode) with insn[0] = 1; and a step that fetches an unrecognised word refuses it with
that word. -/
def Obligations.UnlistedWordIsUnrecognised : Prop :=
  (∀ w : Insn, (∀ row ∈ tableP0, w &&& row.2.2 ≠ row.2.1) ↔
    decode Opcodes.p0 w = .error (.unrecognised w)) ∧
  (∀ (ops : Opcodes) (w : Insn), ops.wf → w.extractLsb' 26 6 = ops.indexed → w.getLsbD 0 = true →
    decode ops w = .error (.unrecognised w)) ∧
  (∀ (s : State) (w : Insn), s.faultRecord = [] → s.isFinal = false → s.fetch = some w →
    decode s.launch.opcodes w = .error (.unrecognised w) → step s = .refused (.unrecognised w))

/-- Words of spec/95_test_vectors.md 2.5 (K1, K2, K4, K8, K15) and of R104 and R106, R109: what each decodes to under P0
(D12, log 9). -/
def Obligations.WrittenOutWordsDecode : Prop :=
  decode Opcodes.p0 0x8C640008#32 = .ok (.lbzup 3 4 8#16) ∧
  decode Opcodes.p0 0x8C64FFFF#32 = .ok (.lbzup 3 4 0xFFFF#16) ∧
  decode Opcodes.p0 0xE864FFF9#32 = .ok (.ldup 3 4 0x3FFE#14) ∧
  decode Opcodes.p0 0x7C6428EE#32 = .ok (.lbzupx 3 4 5) ∧
  decode Opcodes.p0 0xF8840009#32 = .ok (.stdup 4 4 2#14) ∧
  decode Opcodes.p0 0xC4240004#32 = .ok (.lfsup 1 4 4#16) ∧
  decode Opcodes.p0 0x7C242C6E#32 = .ok (.lfsupx 1 4 5) ∧
  decode Opcodes.p0 0x7C242DEE#32 = .ok (.stfdupx 1 4 5)

/-- R31 (D4): four bytes of a program image make an instruction word by BYTE_ORDER: the byte at the lowest address is
insn[31:24] under BE and insn[7:0] under LE, and the bytes that follow are left. -/
def Obligations.ImageBytesDecodeByByteOrder : Prop :=
  ∀ (ops : Opcodes) (w : Insn) (i : Instr) (rest : List Byte), decode ops w = .ok i →
    decodeBytes ops .be
      (w.extractLsb' 24 8 :: w.extractLsb' 16 8 :: w.extractLsb' 8 8 :: w.extractLsb' 0 8 :: rest) = .ok (i, rest) ∧
    decodeBytes ops .le
      (w.extractLsb' 0 8 :: w.extractLsb' 8 8 :: w.extractLsb' 16 8 :: w.extractLsb' 24 8 :: rest) = .ok (i, rest)

/-! ### A step -/

/-- R161 (D16): where pc is the address of a word of TEXT that decodes to i under OPCODES, in a state that is neither final nor
faulted, step is exec of i at that same state; nothing is added before or after it. -/
def Obligations.StepRunsTheDecodedInstruction : Prop :=
  ∀ (s : State) (k : Nat) (w : Insn) (i : Instr), s.faultRecord = [] → s.isFinal = false →
    s.pc = s.launch.textBase + BitVec.ofNat 64 (4 * k) → 4 * k < 2 ^ 64 →
    s.launch.text[k]? = some w → decode s.launch.opcodes w = .ok i → step s = exec i s

/-- R163, R140 (D15, D16): a final state has no step, and a state with a recorded fault has no step; the model's name for "no
step" is a fault of its own (log 13), and it is not recorded; the end of the text is compared modulo 2^64
(log 14). -/
def Obligations.NoStepFromFinalOrFaulted : Prop :=
  (∀ s : State, s.pc = s.launch.textBase + BitVec.ofNat 64 (4 * s.launch.text.length) → s.faultRecord = [] →
    step s = .fault .runEnded ∧ transition s = s) ∧
  (∀ s : State, s.faultRecord ≠ [] → step s = .fault .haltedByFault ∧ transition s = s)

/-- R140, R29 (D15): a step that raises one of the six outcomes writes no register, no byte and not pc: it appends (X, info, pc)
to the fault record, and the agent has no further step. -/
def Obligations.RaiseRecordsAndWritesNothing : Prop :=
  ∀ (s : State) (x : Stop), x.recorded = true → step s = raise x →
    transition s = { s with faultRecord := [⟨x, s.pc⟩] } ∧
    transition (transition s) = transition s

/-- R23 (b), (c) (D10): every step that completes adds 4 to pc, modulo 2^64; no instruction writes pc otherwise. -/
def Obligations.CompletedStepAddsFourToPc : Prop :=
  ∀ s t : State, step s = .next t → t.pc = s.pc + 4#64

/-- R27, R31, R45, R166 (D4, D16): a step changes no launch parameter, the program text among them, and no byte of memory at
an address of the program text. -/
def Obligations.TextAndParametersNeverChange : Prop :=
  ∀ s t : State, step s = .next t →
    t.launch = s.launch ∧
    ∀ addr, s.launch.inText addr = true → Memory.read? t.mem addr = Memory.read? s.mem addr

/-! ### Reset, launch and the invariant -/

/-- R30, R160: after reset pc is TEXT_BASE, the fault record is empty and no byte of memory is written. (The value of TEXT_BASE,
the zero registers and the empty text are the model's: log 1, log 2, log 6; nothing here rests on them.) -/
def Obligations.ResetState : Prop :=
  State.reset.pc = State.reset.launch.textBase ∧ State.reset.faultRecord = [] ∧
  ∀ addr, Memory.read? State.reset.mem addr = none

/-- The invariant of a run holds at State.reset (whose parameters are the model's choice: log 5, log 6, log 7). -/
def Obligations.ResetMeetsTheInvariant : Prop :=
  State.reset.Inv

/-- R160: a launch of parameters and a program as (a) and (b) have them (the text of at least one word) with memory bytes inside
MEMORY_MAP, the text's own in the text region (R45, log 18), is a launch state, and every launch state meets the invariant. (Every register is named: log 1, log 2.) -/
def Obligations.LaunchMeetsTheInvariant : Prop :=
  (∀ (l : Launch) (gpr fpr : Vector Word 32) (mem : Memory), l.wf → Memory.wf mem →
    (∀ c ∈ mem, l.admits c.1 = true) → agreesWithText l mem → (State.launched l gpr fpr mem).IsLaunch) ∧
  ∀ s : State, s.IsLaunch → s.Inv

/-- Every step that completes keeps the invariant: memory stays in canonical form, inside MEMORY_MAP and, in
the program text, without another byte than the text's, pc stays the address of a word of the text or of its end, and no fault is
recorded (R23, R35, R45, R140, R161). -/
def Obligations.StepKeepsTheInvariant : Prop :=
  ∀ s t : State, s.Inv → step s = .next t → t.Inv ∧ t.faultRecord = []

/-- Every transition, of a step that completes, raises, or is none, keeps the invariant: the fault record never holds more than
the one raise that ended the run (R140, R163). -/
def Obligations.TransitionKeepsTheInvariant : Prop :=
  ∀ s : State, s.Inv → (transition s).Inv

/-- R23 (a), R161: in every state that meets the invariant pc is a multiple of 4, and unless the state is final its pc is the
address of a word of the text, which fetch returns. -/
def Obligations.PcIsAlignedAndInText : Prop :=
  ∀ s : State, s.Inv → s.faultRecord = [] →
    s.pc.toNat % 4 = 0 ∧
    (s.isFinal = false → ∃ k w, s.pc = s.launch.textBase + BitVec.ofNat 64 (4 * k) ∧
      s.launch.text[k]? = some w ∧ s.fetch = some w)

/-- R163 (D16): every run ends after at most as many steps as there are words of the text left, final or faulted, and stays so;
at most len(TEXT) steps in all. (The end of a text that ends at 2^64 is compared modulo 2^64: log 14.) -/
def Obligations.EveryRunEnds : Prop :=
  ∀ s : State, s.Inv → s.remaining ≤ s.launch.text.length ∧
    ∃ k ≤ s.remaining,
      ((transitions k s).isFinal = true ∨ (transitions k s).faultRecord ≠ []) ∧
      ∀ j, k ≤ j → transitions j s = transitions k s

/-! ### Memory -/

/-- R32, R34, R35, R146 (D5, D7): the outcome of MemRead, its tests in their order: misalignment, then the map, then the first
byte that a load finds no value at (nothing has written it, or, in the program text, it is not the text's: R45, log 18), else a
value. -/
def Obligations.MemReadOutcomes : Prop :=
  ∀ (s : State) (a : Addr) (n : Nat), IsWidth n →
    (s.launch.misaligned = .fault → a.toNat % n ≠ 0 → memRead s a n = .error (.fault (.alignmentFault a))) ∧
    ((s.launch.misaligned = .fault → a.toNat % n = 0) → (∃ k < n, s.launch.admits (byteAddr a k) = false) →
      memRead s a n = .error (.fault (.storageFault a))) ∧
    (∀ k < n, Accessible s a n → (∀ j < k, (s.byte? (byteAddr a j)).isSome = true) →
      s.byte? (byteAddr a k) = none →
      memRead s a n = .error (.fault (.unwritten (BitVec.ofNat 64 (byteAddr a k))))) ∧
    (Readable s a n → ∃ m, memRead s a n = .ok m)

/-- R31, R32 (4) (D4): each byte of the value MemRead returns is the byte of memory at its offset: byte k is
v[8*(n-1-k)+7 : 8*(n-1-k)] under BE and v[8*k+7 : 8*k] under LE, its address wrapping modulo 2^64 (R36). -/
def Obligations.MemReadAssemblesTheBytes : Prop :=
  ∀ (s : State) (a : Addr) (n : Nat) (v : BitVec (8 * n)), IsWidth n → memRead s a n = .ok v →
    ∀ k < n, Memory.read? s.mem ((a.toNat + k) % 2 ^ 64) =
      some (v.extractLsb' (if s.launch.byteOrder = .be then 8 * (n - 1 - k) else 8 * k) 8)

/-- R33, R34, R35, R45 (D5, D7, D16): the outcome of MemWrite, its tests in their order: misalignment, then the map, then the
program text, else the write. -/
def Obligations.MemWriteOutcomes : Prop :=
  ∀ (s : State) (a : Addr) (n : Nat) (v : BitVec (8 * n)), IsWidth n →
    (s.launch.misaligned = .fault → a.toNat % n ≠ 0 → memWrite s a n v = .error (.fault (.alignmentFault a))) ∧
    ((s.launch.misaligned = .fault → a.toNat % n = 0) → (∃ k < n, s.launch.admits (byteAddr a k) = false) →
      memWrite s a n v = .error (.fault (.storageFault a))) ∧
    (Accessible s a n → (∃ k < n, s.launch.inText (byteAddr a k) = true) →
      memWrite s a n v = .error (.refusal .storeToText)) ∧
    (Writable s a n → ∃ t, memWrite s a n v = .ok t)

/-- R33 (4), R31, R39 (D4, D7): MemWrite writes exactly its n bytes, each the byte of v that R31 puts at its offset, and changes
nothing but memory; the canonical form is kept. -/
def Obligations.MemWriteStoresTheBytes : Prop :=
  ∀ (s t : State) (a : Addr) (n : Nat) (v : BitVec (8 * n)), IsWidth n → memWrite s a n v = .ok t →
    (∀ k < n, Memory.read? t.mem ((a.toNat + k) % 2 ^ 64) =
      some (v.extractLsb' (if s.launch.byteOrder = .be then 8 * (n - 1 - k) else 8 * k) 8)) ∧
    (∀ addr, (∀ k < n, addr ≠ (a.toNat + k) % 2 ^ 64) → Memory.read? t.mem addr = Memory.read? s.mem addr) ∧
    t = { s with mem := t.mem } ∧ (Memory.wf s.mem → Memory.wf t.mem)

/-- R39, R42 (c): a read at the address and width of the last store returns the value stored, in either byte order, aligned or
split. -/
def Obligations.StoreThenLoadGivesTheValue : Prop :=
  ∀ (s t : State) (a : Addr) (n : Nat) (v : BitVec (8 * n)), IsWidth n → memWrite s a n v = .ok t →
    memRead t a n = .ok v

/-- R31: "a halfword stored at a and a byte loaded from a yields, under BE, the halfword's high byte v[15:8], under LE its low
byte v[7:0]" (which the spec derives). -/
def Obligations.ByteOfStoredHalfword : Prop :=
  ∀ (s t : State) (a : Addr) (v : BitVec (8 * 2)), memWrite s a 2 v = .ok t →
    memRead t a 1 = .ok (if s.launch.byteOrder = .be then v.extractLsb' 8 8 else v.extractLsb' 0 8)

/-! ### Where an instruction raises -/

/-- R61, R141 (D19): each of the 27 instructions whose field values meet the invalid-form condition (RA = 0, or RA = RT on a
fixed-point load) raises InvalidForm with its word, before any other test but that of ADMIT_FP; and no other field values do. -/
def Obligations.InvalidFormRaises : Prop :=
  ∀ (i : Instr) (s : State), i.encodable = true → (i.isFp = true → s.launch.admitFp = true) →
    (i.formOk = false → ∃ w, encode s.launch.opcodes i = some w ∧ exec i s = .fault (.invalidForm w)) ∧
    (i.formOk = true → ∀ w, exec i s ≠ .fault (.invalidForm w))

/-- R143 (a), R147 (2) (D13): with ADMIT_FP = false the eight floating-point instructions are refused by name, before every
other test. -/
def Obligations.FpRefusedUnlessAdmitted : Prop :=
  ∀ (i : Instr) (s : State), i.isFp = true → s.launch.admitFp = false → exec i s = .refused (.fpNotAdmitted i.mnemonic)

/-- R144, R34, R147 (D5): under MISALIGNED = fault each of the 27 instructions, in a valid form, raises AlignmentFault with the
address in RA when that is no multiple of its width. -/
def Obligations.MisalignedAccessRaises : Prop :=
  ∀ (i : Instr) (s : State) (ra : Reg) (n : Nat), i.formOk = true → (i.isFp = true → s.launch.admitFp = true) →
    (i.loadAccess = some (ra, n) ∨ i.storeAccess = some (ra, n)) →
    s.launch.misaligned = .fault → (s.gpr.get ra).toNat % n ≠ 0 →
    exec i s = .fault (.alignmentFault (s.gpr.get ra))

/-- R145, R35, R147 (D7): each of the 27 instructions, in a valid form and not stopped by its alignment, raises StorageFault
with the address in RA when some byte of its access is outside MEMORY_MAP. -/
def Obligations.UnmappedAccessRaises : Prop :=
  ∀ (i : Instr) (s : State) (ra : Reg) (n : Nat), i.formOk = true → (i.isFp = true → s.launch.admitFp = true) →
    (i.loadAccess = some (ra, n) ∨ i.storeAccess = some (ra, n)) →
    (s.launch.misaligned = .fault → (s.gpr.get ra).toNat % n = 0) →
    (∃ k < n, s.launch.admits (byteAddr (s.gpr.get ra) k) = false) →
    exec i s = .fault (.storageFault (s.gpr.get ra))

/-- R146, R32 (3), R147 (D17): each of the 15 loads, in a valid form with an access that exists, raises Unwritten with the
address of the lowest byte that a load finds no value at: nothing has written it, or it stands in the program text and memory
does not hold the text's byte there (R45; log 18). (The spec's Unwritten register does not arise here: log 1, log 2.) -/
def Obligations.UnwrittenByteRaises : Prop :=
  ∀ (i : Instr) (s : State) (ra : Reg) (n k : Nat), i.formOk = true → (i.isFp = true → s.launch.admitFp = true) →
    i.loadAccess = some (ra, n) → Accessible s (s.gpr.get ra) n → k < n →
    (∀ j < k, (s.byte? (byteAddr (s.gpr.get ra) j)).isSome = true) →
    s.byte? (byteAddr (s.gpr.get ra) k) = none →
    exec i s = .fault (.unwritten (BitVec.ofNat 64 (byteAddr (s.gpr.get ra) k)))

/-- R45, R143 (c), R33 (3) (D16): each of the 12 stores, in a valid form with an access that exists, is refused when any byte of
it lies in the program text. -/
def Obligations.StoreToTextRefused : Prop :=
  ∀ (i : Instr) (s : State) (ra : Reg) (n : Nat), i.formOk = true → (i.isFp = true → s.launch.admitFp = true) →
    i.storeAccess = some (ra, n) → Accessible s (s.gpr.get ra) n →
    (∃ k < n, s.launch.inText (byteAddr (s.gpr.get ra) k) = true) →
    exec i s = .refused .storeToText

/-! ### Fixed-point loads -/

/-- R71, R72: `lbzup` and `lbzupx`. The byte at the OLD RA goes zero-extended into RT, RA becomes RA + sext_64(D) or
RA + GPR[RB] (the old RB); RA = 0 or RA = RT is invalid. That the form faults with nothing written (D19, log 17), and the old RB
where RB = RT (R10, D9, U6; log 11), are the spec's own decisions. -/
def Obligations.LoadByteAndZero : Prop :=
  ∀ (s : State) (rt ra rb : Reg) (d : BitVec 16),
    (ra = 0 ∨ ra = rt →
      (∃ w, exec (.lbzup rt ra d) s = .fault (.invalidForm w)) ∧ ∃ w, exec (.lbzupx rt ra rb) s = .fault (.invalidForm w)) ∧
    (ra ≠ 0 → ra ≠ rt → Readable s (s.gpr.get ra) 1 → ∃ m : BitVec 8,
      Memory.read? s.mem (s.gpr.get ra).toNat = some m ∧
      exec (.lbzup rt ra d) s = .next (afterLoad s rt ra (0#56 ++ m) (d.signExtend 64)) ∧
      exec (.lbzupx rt ra rb) s = .next (afterLoad s rt ra (0#56 ++ m) (s.gpr.get rb)))

/-- R73, R74: `lhzup` and `lhzupx`. The halfword at the OLD RA goes zero-extended into RT, RA becomes RA + sext_64(D) or
RA + GPR[RB] (the old RB); RA = 0 or RA = RT is invalid. That the form faults with nothing written (D19, log 17), and the old RB
where RB = RT (R10, D9, U6; log 11), are the spec's own decisions. -/
def Obligations.LoadHalfwordAndZero : Prop :=
  ∀ (s : State) (rt ra rb : Reg) (d : BitVec 16),
    (ra = 0 ∨ ra = rt →
      (∃ w, exec (.lhzup rt ra d) s = .fault (.invalidForm w)) ∧ ∃ w, exec (.lhzupx rt ra rb) s = .fault (.invalidForm w)) ∧
    (ra ≠ 0 → ra ≠ rt → Readable s (s.gpr.get ra) 2 → ∃ m : BitVec 16,
      memRead s (s.gpr.get ra) 2 = .ok m ∧
      exec (.lhzup rt ra d) s = .next (afterLoad s rt ra (0#48 ++ m) (d.signExtend 64)) ∧
      exec (.lhzupx rt ra rb) s = .next (afterLoad s rt ra (0#48 ++ m) (s.gpr.get rb)))

/-- R75, R76: `lhaup` and `lhaupx`. The halfword at the OLD RA goes sign-extended into RT (its bit 15 copied into bits 63:16),
RA becomes RA + sext_64(D) or RA + GPR[RB] (the old RB); RA = 0 or RA = RT is invalid (the spec's own decision D19 for these
two, log 17). Where RB = RT the old RB is the spec's own decision R10 (D9, U6; log 11). -/
def Obligations.LoadHalfwordAlgebraic : Prop :=
  ∀ (s : State) (rt ra rb : Reg) (d : BitVec 16),
    (ra = 0 ∨ ra = rt →
      (∃ w, exec (.lhaup rt ra d) s = .fault (.invalidForm w)) ∧ ∃ w, exec (.lhaupx rt ra rb) s = .fault (.invalidForm w)) ∧
    (ra ≠ 0 → ra ≠ rt → Readable s (s.gpr.get ra) 2 → ∃ m : BitVec 16,
      memRead s (s.gpr.get ra) 2 = .ok m ∧
      exec (.lhaup rt ra d) s =
        .next (afterLoad s rt ra ((if m.getLsbD 15 then 0xFFFFFFFFFFFF#48 else 0#48) ++ m) (d.signExtend 64)) ∧
      exec (.lhaupx rt ra rb) s =
        .next (afterLoad s rt ra ((if m.getLsbD 15 then 0xFFFFFFFFFFFF#48 else 0#48) ++ m) (s.gpr.get rb)))

/-- R77, R78: `lwzup` and `lwzupx`. The word at the OLD RA goes zero-extended into RT, RA becomes RA + sext_64(D) or
RA + GPR[RB] (the old RB); RA = 0 or RA = RT is invalid. That the form faults with nothing written (D19, log 17), and the old RB
where RB = RT (R10, D9, U6; log 11), are the spec's own decisions. -/
def Obligations.LoadWordAndZero : Prop :=
  ∀ (s : State) (rt ra rb : Reg) (d : BitVec 16),
    (ra = 0 ∨ ra = rt →
      (∃ w, exec (.lwzup rt ra d) s = .fault (.invalidForm w)) ∧ ∃ w, exec (.lwzupx rt ra rb) s = .fault (.invalidForm w)) ∧
    (ra ≠ 0 → ra ≠ rt → Readable s (s.gpr.get ra) 4 → ∃ m : BitVec 32,
      memRead s (s.gpr.get ra) 4 = .ok m ∧
      exec (.lwzup rt ra d) s = .next (afterLoad s rt ra (0#32 ++ m) (d.signExtend 64)) ∧
      exec (.lwzupx rt ra rb) s = .next (afterLoad s rt ra (0#32 ++ m) (s.gpr.get rb)))

/-- R79: `lwaupx`. The word at the OLD RA goes sign-extended into RT (its bit 31 copied into bits 63:32), RA becomes RA +
GPR[RB] (the old RB); RA = 0 or RA = RT is invalid (the spec's own decision D19 for it, log 17). Where RB = RT the old RB is
the spec's own decision R10 (D9, U6; log 11). -/
def Obligations.LoadWordAlgebraic : Prop :=
  ∀ (s : State) (rt ra rb : Reg),
    (ra = 0 ∨ ra = rt → ∃ w, exec (.lwaupx rt ra rb) s = .fault (.invalidForm w)) ∧
    (ra ≠ 0 → ra ≠ rt → Readable s (s.gpr.get ra) 4 → ∃ m : BitVec 32,
      memRead s (s.gpr.get ra) 4 = .ok m ∧
      exec (.lwaupx rt ra rb) s =
        .next (afterLoad s rt ra ((if m.getLsbD 31 then 0xFFFFFFFF#32 else 0#32) ++ m) (s.gpr.get rb)))

/-- R80, R81: `ldup` and `ldupx`. The doubleword at the OLD RA goes into RT, RA becomes RA + sext_64(DS || 0b00) or RA + GPR[RB]
(the old RB); RA = 0 or RA = RT is invalid (the spec's own decision D19 for these two, log 17).
Where RB = RT the old RB is the spec's own decision R10 (D9, U6; log 11). -/
def Obligations.LoadDoubleword : Prop :=
  ∀ (s : State) (rt ra rb : Reg) (ds : BitVec 14),
    (ra = 0 ∨ ra = rt →
      (∃ w, exec (.ldup rt ra ds) s = .fault (.invalidForm w)) ∧ ∃ w, exec (.ldupx rt ra rb) s = .fault (.invalidForm w)) ∧
    (ra ≠ 0 → ra ≠ rt → Readable s (s.gpr.get ra) 8 → ∃ m : BitVec 64,
      memRead s (s.gpr.get ra) 8 = .ok m ∧
      exec (.ldup rt ra ds) s = .next (afterLoad s rt ra m ((ds ++ 0#2).signExtend 64)) ∧
      exec (.ldupx rt ra rb) s = .next (afterLoad s rt ra m (s.gpr.get rb)))

/-! ### Fixed-point stores -/

/-- R86, R87: `stbup` and `stbupx`, in a valid form. The low byte of RS (of the OLD RA where RS = RA) goes to the OLD RA, every
other byte of memory reads as before, RA becomes RA + sext_64(D) or RA + GPR[RB]. -/
def Obligations.StoreByte : Prop :=
  ∀ (s : State) (rs ra rb : Reg) (d : BitVec 16), ra ≠ 0 → Writable s (s.gpr.get ra) 1 →
    ∃ mem : Memory, Stored s mem (s.gpr.get ra) 1 ((s.gpr.get rs).extractLsb' 0 8) ∧
      exec (.stbup rs ra d) s = .next (afterStore s mem ra (d.signExtend 64)) ∧
      exec (.stbupx rs ra rb) s = .next (afterStore s mem ra (s.gpr.get rb))

/-- R88, R89: `sthup` and `sthupx`, in a valid form. The low halfword of RS goes to the OLD RA, every other byte of memory reads
as before, RA becomes RA + sext_64(D) or RA + GPR[RB]. -/
def Obligations.StoreHalfword : Prop :=
  ∀ (s : State) (rs ra rb : Reg) (d : BitVec 16), ra ≠ 0 → Writable s (s.gpr.get ra) 2 →
    ∃ mem : Memory, Stored s mem (s.gpr.get ra) 2 ((s.gpr.get rs).extractLsb' 0 16) ∧
      exec (.sthup rs ra d) s = .next (afterStore s mem ra (d.signExtend 64)) ∧
      exec (.sthupx rs ra rb) s = .next (afterStore s mem ra (s.gpr.get rb))

/-- R90, R91: `stwup` and `stwupx`, in a valid form. The low word of RS goes to the OLD RA, every other byte of memory reads as
before, RA becomes RA + sext_64(D) or RA + GPR[RB]. -/
def Obligations.StoreWord : Prop :=
  ∀ (s : State) (rs ra rb : Reg) (d : BitVec 16), ra ≠ 0 → Writable s (s.gpr.get ra) 4 →
    ∃ mem : Memory, Stored s mem (s.gpr.get ra) 4 ((s.gpr.get rs).extractLsb' 0 32) ∧
      exec (.stwup rs ra d) s = .next (afterStore s mem ra (d.signExtend 64)) ∧
      exec (.stwupx rs ra rb) s = .next (afterStore s mem ra (s.gpr.get rb))

/-- R92, R93: `stdup` and `stdupx`, in a valid form. All of RS (of the OLD RA where RS = RA) goes to the OLD RA, every other
byte of memory reads as before, RA becomes RA + sext_64(DS || 0b00) or RA + GPR[RB]. -/
def Obligations.StoreDoubleword : Prop :=
  ∀ (s : State) (rs ra rb : Reg) (ds : BitVec 14), ra ≠ 0 → Writable s (s.gpr.get ra) 8 →
    ∃ mem : Memory, Stored s mem (s.gpr.get ra) 8 (s.gpr.get rs) ∧
      exec (.stdup rs ra ds) s = .next (afterStore s mem ra ((ds ++ 0#2).signExtend 64)) ∧
      exec (.stdupx rs ra rb) s = .next (afterStore s mem ra (s.gpr.get rb))

/-! ### Floating-point loads and stores (D13: constructed by the spec; log 5, log 10) -/

/-- R103, R105: `lfdup` and `lfdupx` with ADMIT_FP: the doubleword at the OLD RA goes into FPR[FRT], RA becomes RA + increment;
FRT = RA as numbers is no restriction. -/
def Obligations.LoadFpDouble : Prop :=
  ∀ (s : State) (frt ra rb : Reg) (d : BitVec 16), s.launch.admitFp = true → ra ≠ 0 →
    Readable s (s.gpr.get ra) 8 → ∃ m : BitVec 64, memRead s (s.gpr.get ra) 8 = .ok m ∧
      exec (.lfdup frt ra d) s = .next (afterFpLoad s frt ra m (d.signExtend 64)) ∧
      exec (.lfdupx frt ra rb) s = .next (afterFpLoad s frt ra m (s.gpr.get rb))

/-- R104, R106: `lfsup` and `lfsupx` with ADMIT_FP: the word at the OLD RA goes through the FpSingleToDouble of the launch (R5;
the one of R101 where the launch takes the recommended pair) into FPR[FRT], RA becomes RA + increment. -/
def Obligations.LoadFpSingle : Prop :=
  ∀ (s : State) (frt ra rb : Reg) (d : BitVec 16), s.launch.admitFp = true → ra ≠ 0 →
    Readable s (s.gpr.get ra) 4 → ∃ m : BitVec 32, memRead s (s.gpr.get ra) 4 = .ok m ∧
      exec (.lfsup frt ra d) s = .next (afterFpLoad s frt ra (singleToDouble s.launch m) (d.signExtend 64)) ∧
      exec (.lfsupx frt ra rb) s = .next (afterFpLoad s frt ra (singleToDouble s.launch m) (s.gpr.get rb)) ∧
      (s.launch.fpConversions = .recommended → singleToDouble s.launch m = fpSingleToDouble m)

/-- R107, R109: `stfdup` and `stfdupx` with ADMIT_FP: FPR[FRS] goes to the OLD RA, every other byte of memory reads as before,
RA becomes RA + increment. -/
def Obligations.StoreFpDouble : Prop :=
  ∀ (s : State) (frs ra rb : Reg) (d : BitVec 16), s.launch.admitFp = true → ra ≠ 0 →
    Writable s (s.gpr.get ra) 8 → ∃ mem : Memory, Stored s mem (s.gpr.get ra) 8 (s.fpr.get frs) ∧
      exec (.stfdup frs ra d) s = .next (afterStore s mem ra (d.signExtend 64)) ∧
      exec (.stfdupx frs ra rb) s = .next (afterStore s mem ra (s.gpr.get rb))

/-- R108, R110: `stfsup` and `stfsupx` with ADMIT_FP, where the FpDoubleToSingle of the launch (R5; the one of R102 where the
launch takes the recommended pair) has a value: that word goes to the OLD RA, every other
byte of memory reads as before, RA becomes RA + increment. -/
def Obligations.StoreFpSingle : Prop :=
  ∀ (s : State) (frs ra rb : Reg) (d : BitVec 16) (w : BitVec 32), s.launch.admitFp = true → ra ≠ 0 →
    Writable s (s.gpr.get ra) 4 →
    (doubleToSingle s.launch (s.fpr.get frs) = some w ∨
      s.launch.fpConversions = .recommended ∧ fpDoubleToSingle (s.fpr.get frs) = some w) →
    ∃ mem : Memory, Stored s mem (s.gpr.get ra) 4 w ∧
      exec (.stfsup frs ra d) s = .next (afterStore s mem ra (d.signExtend 64)) ∧
      exec (.stfsupx frs ra rb) s = .next (afterStore s mem ra (s.gpr.get rb))

/-- R102, U7, R108, R110: where the FpDoubleToSingle of the launch has no value (with the recommended pair, in the undefined
band of R102) the store still completes: the stored word is a free value (`Config.draw32`, log 8; nothing is known of it), and
every other effect is as in the defined case. -/
def Obligations.StoreFpSingleUndefinedBand : Prop :=
  ∀ (s : State) (frs ra rb : Reg) (d : BitVec 16), s.launch.admitFp = true → ra ≠ 0 →
    Writable s (s.gpr.get ra) 4 →
    (doubleToSingle s.launch (s.fpr.get frs) = none ∨
      s.launch.fpConversions = .recommended ∧ ((s.fpr.get frs).extractLsb' 52 11).toNat < 874 ∧
        (s.fpr.get frs).extractLsb' 0 63 ≠ 0#63) →
    ∃ mem : Memory, Stored s mem (s.gpr.get ra) 4 (Config.draw32 s.draws) ∧
      exec (.stfsup frs ra d) s = .next (afterStore { s with draws := s.draws + 1 } mem ra (d.signExtend 64)) ∧
      exec (.stfsupx frs ra rb) s = .next (afterStore { s with draws := s.draws + 1 } mem ra (s.gpr.get rb))

/-- R101: the recommended FpSingleToDouble (log 10) case by case. With s, e, f the fields of w: a normal number, a zero, a
denormal (k the place of the highest set bit of f) and an infinity or NaN, whose payload is kept. -/
def Obligations.SingleToDoubleCases : Prop :=
  ∀ (s : BitVec 1) (e : BitVec 8) (f : BitVec 23),
    (e ≠ 0#8 → e ≠ 255#8 →
      fpSingleToDouble (s ++ e ++ f) = s ++ BitVec.ofNat 11 (e.toNat + 896) ++ f ++ 0#29) ∧
    fpSingleToDouble (s ++ 0#8 ++ 0#23) = s ++ 0#63 ∧
    (∀ k, 2 ^ k ≤ f.toNat → f.toNat < 2 ^ (k + 1) →
      fpSingleToDouble (s ++ 0#8 ++ f) =
        s ++ BitVec.ofNat 11 (k + 874) ++ BitVec.ofNat 52 ((f.toNat - 2 ^ k) * 2 ^ (52 - k))) ∧
    fpSingleToDouble (s ++ 255#8 ++ f) = s ++ 0x7FF#11 ++ f ++ 0#29

/-- R102: the recommended FpDoubleToSingle (log 10) case by case, with e and f the exponent and fraction fields of d: the bit
shuffle, the truncating shift of the denormal range, and no value in the undefined band. -/
def Obligations.DoubleToSingleCases : Prop :=
  ∀ (s : BitVec 1) (e : BitVec 11) (f : BitVec 52),
    (896 < e.toNat → fpDoubleToSingle (s ++ e ++ f) =
      some (s ++ e.extractLsb' 10 1 ++ e.extractLsb' 0 7 ++ f.extractLsb' 29 23)) ∧
    fpDoubleToSingle (s ++ 0#63) = some (s ++ 0#31) ∧
    (874 ≤ e.toNat → e.toNat ≤ 896 → fpDoubleToSingle (s ++ e ++ f) =
      some (s ++ 0#8 ++ BitVec.ofNat 23 ((2 ^ 52 + f.toNat) / 2 ^ (897 - e.toNat) / 2 ^ 29))) ∧
    (e.toNat < 874 → e ≠ 0#11 ∨ f ≠ 0#52 → fpDoubleToSingle (s ++ e ++ f) = none)

/-- R102: "FpDoubleToSingle(FpSingleToDouble(w)) = w for every w", denormals, infinities and NaNs included (which the spec
derives from a sample). -/
def Obligations.SingleToDoubleAndBack : Prop :=
  ∀ w : BitVec 32, fpDoubleToSingle (fpSingleToDouble w) = some w

/-! ### Shifted mnemonics -/

/-- R116 to R125: the ten fixed-point shifted mnemonics have no semantics and are refused by name in every state. -/
def Obligations.ShiftedFixedRefused : Prop :=
  ∀ s : State,
    exec .lbzuspx s = .refused (.noSemantics "lbzuspx") ∧ exec .lhzuspx s = .refused (.noSemantics "lhzuspx") ∧
    exec .lhauspx s = .refused (.noSemantics "lhauspx") ∧ exec .lwzuspx s = .refused (.noSemantics "lwzuspx") ∧
    exec .lwauspx s = .refused (.noSemantics "lwauspx") ∧ exec .lduspx s = .refused (.noSemantics "lduspx") ∧
    exec .stbuspx s = .refused (.noSemantics "stbuspx") ∧ exec .sthuspx s = .refused (.noSemantics "sthuspx") ∧
    exec .stwuspx s = .refused (.noSemantics "stwuspx") ∧ exec .stduspx s = .refused (.noSemantics "stduspx")

/-- R126 to R129: the four floating-point shifted mnemonics are refused by name, whatever the value of ADMIT_FP. -/
def Obligations.ShiftedFpRefused : Prop :=
  ∀ s : State,
    exec .lfdupsx s = .refused (.noSemantics "lfdupsx") ∧ exec .lfsupsx s = .refused (.noSemantics "lfsupsx") ∧
    exec .stfdupsx s = .refused (.noSemantics "stfdupsx") ∧ exec .stfsupsx s = .refused (.noSemantics "stfsupsx")

/-! ### Frames and whole-machine rules -/

/-- R21, R24, R70: the frame of the 11 fixed-point loads: only RT, RA and pc change; every byte of memory, every floating-point
register, the launch parameters, the fault record and the draws are as they were. -/
def Obligations.FixedLoadFrame : Prop :=
  ∀ (i : Instr) (s t : State) (rt ra : Reg) (n : Nat), i.gprTarget = some rt → i.loadAccess = some (ra, n) →
    exec i s = .next t →
    (∀ r, r ≠ rt → r ≠ ra → t.gpr.get r = s.gpr.get r) ∧ t.fpr = s.fpr ∧
    (∀ addr, Memory.read? t.mem addr = Memory.read? s.mem addr) ∧ t.mem = s.mem ∧
    t.launch = s.launch ∧ t.faultRecord = s.faultRecord ∧ t.draws = s.draws

/-- R21, R22, R24, R100: the frame of the 4 floating-point loads: only FPR[FRT], RA and pc change. -/
def Obligations.FpLoadFrame : Prop :=
  ∀ (i : Instr) (s t : State) (frt ra : Reg) (n : Nat), i.fprTarget = some frt → i.loadAccess = some (ra, n) →
    exec i s = .next t →
    (∀ r, r ≠ ra → t.gpr.get r = s.gpr.get r) ∧ (∀ r, r ≠ frt → t.fpr.get r = s.fpr.get r) ∧
    (∀ addr, Memory.read? t.mem addr = Memory.read? s.mem addr) ∧ t.mem = s.mem ∧
    t.launch = s.launch ∧ t.faultRecord = s.faultRecord ∧ t.draws = s.draws

/-- R21, R24, R37, R85, R100: the frame of the 12 stores: only RA, pc and the n bytes from the OLD value of RA on change; the
draws change on no fixed-point store. -/
def Obligations.StoreFrame : Prop :=
  ∀ (i : Instr) (s t : State) (ra : Reg) (n : Nat), i.storeAccess = some (ra, n) → exec i s = .next t →
    (∀ r, r ≠ ra → t.gpr.get r = s.gpr.get r) ∧ t.fpr = s.fpr ∧
    (∀ addr, (∀ k < n, addr ≠ ((s.gpr.get ra).toNat + k) % 2 ^ 64) →
      Memory.read? t.mem addr = Memory.read? s.mem addr) ∧
    t.launch = s.launch ∧ t.faultRecord = s.faultRecord ∧ (i.fprSource = none → t.draws = s.draws)

/-- R22, R37: in a step that completes, the floating-point registers change only if the instruction at pc is a floating-point
load, and memory only if it is a store. -/
def Obligations.OnlyFpLoadsWriteFprOnlyStoresWriteMemory : Prop :=
  ∀ (s t : State) (i : Instr), s.current = .ok i → step s = .next t →
    (i.fprTarget = none → t.fpr = s.fpr) ∧ (i.storeAccess = none → t.mem = s.mem)

/-- R21, R61, R70: GPR[0] is never a base: a step changes it only where a fixed-point load names it as RT. -/
def Obligations.GprZeroChangesOnlyAsTarget : Prop :=
  ∀ (s t : State) (i : Instr), s.current = .ok i → step s = .next t → i.gprTarget ≠ some 0 →
    t.gpr.get 0 = s.gpr.get 0

/-- R22: the floating-point registers "are read only by the FP stores": any other instruction does the same to the general
registers, memory, pc, the fault record and the draws, whatever the floating-point registers hold. -/
def Obligations.OnlyFpStoresReadFpr : Prop :=
  ∀ (i : Instr) (s t : State) (f : Vector Word 32), i.fprSource = none → exec i s = .next t →
    ∃ u, exec i { s with fpr := f } = .next u ∧ u.gpr = t.gpr ∧ u.mem = t.mem ∧ u.pc = t.pc ∧
      u.faultRecord = t.faultRecord ∧ u.draws = t.draws ∧
      ∀ r, i.fprTarget = some r → u.fpr.get r = t.fpr.get r

/-- R70, R85: "The loaded value never depends on inc" and "The address of the access never depends on inc"; R100 carries both
over to the floating-point forms (D13, log 5). Two D-Form executions from one state that differ in the displacement alone and
both complete leave the same memory, and the same registers but for RA. (Draws are not compared; the DS-Form is covered by the
statements about `ldup` and `stdup`.) -/
def Obligations.AccessIndependentOfDisplacement : Prop :=
  ∀ (s t u : State) (r ra : Reg) (d d' : BitVec 16) (make : Reg → Reg → BitVec 16 → Instr),
    make ∈ [Instr.lbzup, .lhzup, .lhaup, .lwzup, .stbup, .sthup, .stwup, .lfdup, .lfsup, .stfdup, .stfsup] →
    exec (make r ra d) s = .next t → exec (make r ra d') s = .next u →
    t.mem = u.mem ∧ t.fpr = u.fpr ∧ t.pc = u.pc ∧ ∀ q, q ≠ ra → t.gpr.get q = u.gpr.get q

/-- R59, D12: "nothing in the semantics depends on the numbers": an instruction that completes completes under every other
allocation too, with the same next state but for the allocation; and one that stops stops for the same reason, but for the word
that InvalidForm carries. -/
def Obligations.OpcodeNumbersDoNotMatter : Prop :=
  ∀ (i : Instr) (s : State) (ops : Opcodes),
    (∀ t, exec i s = .next t →
      exec i { s with launch := { s.launch with opcodes := ops } } =
        .next { t with launch := { t.launch with opcodes := ops } }) ∧
    (∀ r, exec i s = .refused r → exec i { s with launch := { s.launch with opcodes := ops } } = .refused r) ∧
    ∀ f, exec i s = .fault f →
      exec i { s with launch := { s.launch with opcodes := ops } } = .fault f ∨
      (∃ w, f = .invalidForm w) ∧
        ∃ w', exec i { s with launch := { s.launch with opcodes := ops } } = .fault (.invalidForm w')

/-- R45 (D16): "Loads from the text region are ordinary loads and need the region to be in MEMORY_MAP with launch bytes equal to
the text's bytes under BYTE_ORDER". With its place and an access that exists, a word loaded from the address of a word of TEXT is
that word; where memory holds the text's bytes the load answers; where it lacks one or holds another (log 18) it raises
Unwritten. -/
def Obligations.LoadFromTextReadsTheText : Prop :=
  ∀ (s : State) (k : Nat) (w : Insn), s.launch.placed → s.launch.text[k]? = some w →
    let a := s.launch.textBase + BitVec.ofNat 64 (4 * k)
    (∀ v, memRead s a 4 = .ok v → v = w) ∧
    (Accessible s a 4 →
      (∀ j < 4, Memory.read? s.mem (byteAddr a j) =
        some (w.extractLsb' (if s.launch.byteOrder = .be then 8 * (3 - j) else 8 * j) 8)) → memRead s a 4 = .ok w) ∧
    (Accessible s a 4 →
      (∃ j < 4, Memory.read? s.mem (byteAddr a j) ≠
        some (w.extractLsb' (if s.launch.byteOrder = .be then 8 * (3 - j) else 8 * j) 8)) →
      ∃ b, memRead s a 4 = .error (.fault (.unwritten b)))
end

