-- ==== Sys2Proof/Laws/Encoding.lean ====
section
/-! SUPPORT. The bits of an encoded word: what each form's mask and fields read from it (R52 to R54, R67), and that no two rows
of an allocation accept one word (R58, R59, R67 (1)). -/

namespace Sys2Proof

/-! ### The patterns of the three forms -/

theorem maskD_bit : ∀ i < 32, maskD.getLsbD i = decide (26 ≤ i) := by decide

theorem maskDS_bit : ∀ i < 32, maskDS.getLsbD i = decide (26 ≤ i ∨ i < 2) := by decide

theorem maskX_bit : ∀ i < 32, maskX.getLsbD i = decide (26 ≤ i ∨ i < 11) := by decide

theorem patternD_at (po : BitVec 6) :
    patternD po &&& maskD = patternD po ∧ (patternD po).extractLsb' 26 6 = po ∧ (patternD po).extractLsb' 21 5 = 0#5 ∧
      (patternD po).extractLsb' 16 5 = 0#5 ∧ (patternD po).extractLsb' 0 16 = 0#16 := by
  revert po; decide

theorem patternDS_at (po : BitVec 6) (xo : BitVec 2) :
    patternDS po xo &&& maskDS = patternDS po xo ∧ (patternDS po xo).extractLsb' 26 6 = po ∧
      (patternDS po xo).extractLsb' 21 5 = 0#5 ∧ (patternDS po xo).extractLsb' 16 5 = 0#5 ∧
      (patternDS po xo).extractLsb' 2 14 = 0#14 := by
  revert po xo; decide

theorem patternX_at (po : BitVec 6) (xo : BitVec 10) :
    patternX po xo &&& maskX = patternX po xo ∧ (patternX po xo).extractLsb' 26 6 = po ∧
      (patternX po xo).extractLsb' 1 10 = xo ∧ (patternX po xo).extractLsb' 21 5 = 0#5 ∧
      (patternX po xo).extractLsb' 16 5 = 0#5 ∧ (patternX po xo).extractLsb' 11 5 = 0#5 := by
  refine ⟨BitVec.eq_of_getLsbD_eq fun i hi => ?_, ?_⟩
  · simp only [BitVec.getLsbD_and, maskX_bit i hi, patternX, BitVec.getLsbD_append, BitVec.getLsbD_zero]
    by_cases h1 : i < 1
    · simp [h1]
    by_cases h2 : i < 11
    · simp [h2]
    by_cases h3 : i < 26
    · simp [h1, show ¬i - 1 < 10 by omega, show i - 1 - 10 < 15 by omega]
    · simp [show 26 ≤ i by omega]
  · have hp := po.isLt
    have hx := xo.isLt
    refine ⟨?_, ?_, ?_, ?_, ?_⟩
    all_goals
      apply BitVec.eq_of_toNat_eq
      simp only [patternX, BitVec.extractLsb'_toNat, BitVec.toNat_append, BitVec.toNat_ofNat, Nat.shiftRight_eq_div_pow,
        Nat.shiftLeft_eq, Nat.zero_mod, Nat.or_zero]
      rw [← Nat.shiftLeft_eq _ 10, ← Nat.shiftLeft_add_eq_or_of_lt hx, Nat.shiftLeft_eq]
      omega

/-! ### The rows -/

/-- Two rows whose masks both fix a field disagree on every word if their patterns differ there. -/
theorem disjoint_of_field {p q m n : Insn} (start len : Nat)
    (hm : ∀ i < len, m.getLsbD (start + i) = true) (hn : ∀ i < len, n.getLsbD (start + i) = true)
    (h : p.extractLsb' start len ≠ q.extractLsb' start len) : (p ^^^ q) &&& m &&& n ≠ 0#32 := by
  refine fun e => h (BitVec.eq_of_getLsbD_eq fun i hi => ?_)
  have := congrArg (fun w : Insn => w.getLsbD (start + i)) e
  simp only [BitVec.getLsbD_and, BitVec.getLsbD_xor, hm i hi, hn i hi, BitVec.getLsbD_zero, Bool.and_true] at this
  simpa [BitVec.getLsbD_extractLsb', hi] using this

theorem immediate_primary (ops : Opcodes) :
    (opcodeRowsImmediate ops).map (fun r => r.pattern.extractLsb' 26 6) = ops.primary := by
  simp [opcodeRowsImmediate, Opcodes.primary, rowD, rowDS, patternD_at, patternDS_at]

theorem indexed_extended (ops : Opcodes) :
    (opcodeRowsIndexed ops).map (fun r => r.pattern.extractLsb' 1 10) = ops.extended := by
  simp [opcodeRowsIndexed, Opcodes.extended, rowX, patternX_at]

/-- Every row fixes its primary opcode, which for an indexed row is the shared one. -/
theorem immediate_mask (ops : Opcodes) : ∀ r ∈ opcodeRowsImmediate ops, ∀ i < 6, r.mask.getLsbD (26 + i) = true := by
  simp only [opcodeRowsImmediate, List.forall_mem_cons, rowD, rowDS]
  decide

theorem indexed_mask (ops : Opcodes) :
    ∀ r ∈ opcodeRowsIndexed ops, r.mask = maskX ∧ r.pattern.extractLsb' 26 6 = ops.indexed := by
  simp [opcodeRowsIndexed, rowX, patternX_at]

/-- The rows of an allocation as R58 has it are pairwise disjoint (R67 (1)): two patterns differ in a bit that both masks have. -/
theorem opcodeTable_disjoint {ops : Opcodes} (h : ops.wf) :
    (opcodeTable ops).Pairwise (fun r r' => (r.pattern ^^^ r'.pattern) &&& r.mask &&& r'.mask ≠ 0#32) := by
  obtain ⟨hp, hi, hx⟩ := h
  rw [← immediate_primary, List.nodup_iff_pairwise_ne, List.pairwise_map] at hp
  rw [← indexed_extended, List.nodup_iff_pairwise_ne, List.pairwise_map] at hx
  refine List.pairwise_append.2 ⟨?_, ?_, fun r hr q hq => ?_⟩
  · exact hp.imp_of_mem fun hr hq hne =>
      disjoint_of_field 26 6 (immediate_mask ops _ hr) (immediate_mask ops _ hq) hne
  · refine hx.imp_of_mem fun hr hq hne => disjoint_of_field 1 10 ?_ ?_ hne
    · rw [(indexed_mask ops _ hr).1]; decide
    · rw [(indexed_mask ops _ hq).1]; decide
  · refine disjoint_of_field 26 6 (immediate_mask ops r hr) ?_ fun e => hi ?_
    · rw [(indexed_mask ops q hq).1]; decide
    · rw [← immediate_primary, ← (indexed_mask ops q hq).2, ← e]
      exact List.mem_map_of_mem hr

/-- A word of one row is a word of no other. -/
theorem accepts_unique {r r' : OpcodeRow} {w : Insn} (hr : r.accepts w = true)
    (hd : (r.pattern ^^^ r'.pattern) &&& r.mask &&& r'.mask ≠ 0#32) : r'.accepts w = false := by
  unfold OpcodeRow.accepts at *
  rw [beq_iff_eq] at hr
  by_contra hn
  rw [Bool.not_eq_false, beq_iff_eq] at hn
  refine hd (BitVec.eq_of_getLsbD_eq fun i hi => ?_)
  rw [← hr, ← hn]
  simp only [BitVec.getLsbD_and, BitVec.getLsbD_xor, BitVec.getLsbD_zero]
  cases w.getLsbD i <;> cases r.mask.getLsbD i <;> cases r'.mask.getLsbD i <;> rfl

theorem find?_accepts {rows : List OpcodeRow} {r : OpcodeRow} {w : Insn}
    (hp : rows.Pairwise (fun r r' => (r.pattern ^^^ r'.pattern) &&& r.mask &&& r'.mask ≠ 0#32))
    (hm : r ∈ rows) (hw : r.accepts w = true) : rows.find? (fun r => r.accepts w) = some r := by
  induction rows with
  | nil => cases hm
  | cons q rows ih =>
    rw [List.pairwise_cons] at hp
    rcases List.mem_cons.1 hm with rfl | hm
    · simp [hw]
    · have hq : q.accepts w = false := by
        refine accepts_unique hw ?_
        have := hp.1 r hm
        rwa [BitVec.xor_comm, BitVec.and_assoc, BitVec.and_comm r.mask, ← BitVec.and_assoc]
      simp [hq, ih hp.2 hm]

/-- Decoding a word that a row accepts reads that row's fields. -/
theorem decode_of_accepts {ops : Opcodes} {r : OpcodeRow} {w : Insn} (h : ops.wf) (hm : r ∈ opcodeTable ops)
    (hw : r.accepts w = true) : decode ops w = .ok (r.read w) := by
  unfold decode
  rw [find?_accepts (opcodeTable_disjoint h) hm hw]

/-- A word that decodes is accepted by a row, which reads it. -/
theorem decode_ok {ops : Opcodes} {w : Insn} {i : Instr} (h : decode ops w = .ok i) :
    ∃ r ∈ opcodeTable ops, r.accepts w = true ∧ i = r.read w := by
  unfold decode at h
  split at h
  · rename_i r hr
    cases h
    exact ⟨r, List.mem_of_find?_eq_some hr, List.find?_some (p := fun r : OpcodeRow => r.accepts w) hr, rfl⟩
  · cases h

/-! ### Register fields -/

/-- A register's five bits at bit 21, 16 or 11 of a word, and every place a mask or another field looks. -/
theorem regBits_at (r : Reg) :
    (regBits r <<< 21 &&& maskX = 0#32 ∧ regBits r <<< 16 &&& maskX = 0#32 ∧ regBits r <<< 11 &&& maskX = 0#32) ∧
    (regBits r <<< 21 &&& maskD = 0#32 ∧ regBits r <<< 16 &&& maskD = 0#32) ∧
    (regBits r <<< 21 &&& maskDS = 0#32 ∧ regBits r <<< 16 &&& maskDS = 0#32) := by
  revert r; decide

theorem regBits_fields (r : Reg) :
    ((regBits r <<< 21).extractLsb' 21 5 = BitVec.ofFin r ∧ (regBits r <<< 21).extractLsb' 16 5 = 0#5 ∧
      (regBits r <<< 21).extractLsb' 11 5 = 0#5 ∧ (regBits r <<< 21).extractLsb' 0 16 = 0#16 ∧
      (regBits r <<< 21).extractLsb' 2 14 = 0#14) ∧
    ((regBits r <<< 16).extractLsb' 21 5 = 0#5 ∧ (regBits r <<< 16).extractLsb' 16 5 = BitVec.ofFin r ∧
      (regBits r <<< 16).extractLsb' 11 5 = 0#5 ∧ (regBits r <<< 16).extractLsb' 0 16 = 0#16 ∧
      (regBits r <<< 16).extractLsb' 2 14 = 0#14) ∧
    ((regBits r <<< 11).extractLsb' 21 5 = 0#5 ∧ (regBits r <<< 11).extractLsb' 16 5 = 0#5 ∧
      (regBits r <<< 11).extractLsb' 11 5 = BitVec.ofFin r) := by
  revert r; decide

/-! ### The immediates -/

theorem immD_at (d : BitVec 16) :
    d.setWidth 32 &&& maskD = 0#32 ∧ (d.setWidth 32).extractLsb' 21 5 = 0#5 ∧ (d.setWidth 32).extractLsb' 16 5 = 0#5 ∧
      (d.setWidth 32).extractLsb' 0 16 = d := by
  have hd := d.isLt
  refine ⟨?_, ?_, ?_, ?_⟩
  · refine BitVec.eq_of_getLsbD_eq fun i hi => ?_
    simp only [BitVec.getLsbD_and, BitVec.getLsbD_setWidth, maskD_bit i hi, BitVec.getLsbD_zero]
    by_cases h : 26 ≤ i
    · simp [BitVec.getLsbD_of_ge d i (by omega)]
    · simp [h]
  all_goals
    apply BitVec.eq_of_toNat_eq
    simp only [BitVec.extractLsb'_toNat, BitVec.toNat_setWidth, Nat.shiftRight_eq_div_pow, BitVec.toNat_ofNat]
    omega

theorem immDS_at (ds : BitVec 14) :
    ds.setWidth 32 <<< 2 &&& maskDS = 0#32 ∧ (ds.setWidth 32 <<< 2).extractLsb' 21 5 = 0#5 ∧
      (ds.setWidth 32 <<< 2).extractLsb' 16 5 = 0#5 ∧ (ds.setWidth 32 <<< 2).extractLsb' 2 14 = ds := by
  have hd := ds.isLt
  refine ⟨?_, ?_, ?_, ?_⟩
  · refine BitVec.eq_of_getLsbD_eq fun i hi => ?_
    simp only [BitVec.getLsbD_and, BitVec.getLsbD_shiftLeft, BitVec.getLsbD_setWidth, maskDS_bit i hi,
      BitVec.getLsbD_zero]
    by_cases h : 26 ≤ i
    · simp [BitVec.getLsbD_of_ge ds (i - 2) (by omega)]
    · by_cases h2 : i < 2 <;> simp [h, h2]
  all_goals
    apply BitVec.eq_of_toNat_eq
    simp only [BitVec.extractLsb'_toNat, BitVec.toNat_setWidth, BitVec.toNat_shiftLeft, Nat.shiftLeft_eq,
      Nat.shiftRight_eq_div_pow, BitVec.toNat_ofNat]
    omega

/-! ### Encoded words -/

theorem or_and_distrib (x y z : Insn) : (x ||| y) &&& z = (x &&& z) ||| (y &&& z) := by
  refine BitVec.eq_of_getLsbD_eq fun i _ => ?_
  simp only [BitVec.getLsbD_and, BitVec.getLsbD_or]
  exact Bool.and_or_distrib_right _ _ _

theorem encodeD_mask (po : BitVec 6) (rt ra : Reg) (d : BitVec 16) :
    encodeD (patternD po) rt ra d &&& maskD = patternD po := by
  simp [encodeD, or_and_distrib, patternD_at, (regBits_at rt).2.1.1, (regBits_at ra).2.1.2, (immD_at d).1]

theorem encodeDS_mask (po : BitVec 6) (xo : BitVec 2) (rt ra : Reg) (ds : BitVec 14) :
    encodeDS (patternDS po xo) rt ra ds &&& maskDS = patternDS po xo := by
  simp [encodeDS, or_and_distrib, patternDS_at, (regBits_at rt).2.2.1, (regBits_at ra).2.2.2, (immDS_at ds).1]

theorem encodeX_mask (po : BitVec 6) (xo : BitVec 10) (rt ra rb : Reg) :
    encodeX (patternX po xo) rt ra rb &&& maskX = patternX po xo := by
  simp [encodeX, or_and_distrib, patternX_at, (regBits_at rt).1.1, (regBits_at ra).1.2.1, (regBits_at rb).1.2.2]

/-! ### The fields of encoded words -/

theorem encodeD_fields (po : BitVec 6) (rt ra : Reg) (d : BitVec 16) :
    fieldRT (encodeD (patternD po) rt ra d) = rt ∧ fieldRA (encodeD (patternD po) rt ra d) = ra ∧
      fieldD (encodeD (patternD po) rt ra d) = d := by
  simp [fieldRT, fieldRA, fieldD, encodeD, BitVec.extractLsb'_or, patternD_at, regBits_fields, immD_at]

theorem encodeDS_fields (po : BitVec 6) (xo : BitVec 2) (rt ra : Reg) (ds : BitVec 14) :
    fieldRT (encodeDS (patternDS po xo) rt ra ds) = rt ∧ fieldRA (encodeDS (patternDS po xo) rt ra ds) = ra ∧
      fieldDS (encodeDS (patternDS po xo) rt ra ds) = ds := by
  simp [fieldRT, fieldRA, fieldDS, encodeDS, BitVec.extractLsb'_or, patternDS_at, regBits_fields, immDS_at]

theorem encodeX_fields (po : BitVec 6) (xo : BitVec 10) (rt ra rb : Reg) :
    fieldRT (encodeX (patternX po xo) rt ra rb) = rt ∧ fieldRA (encodeX (patternX po xo) rt ra rb) = ra ∧
      fieldRB (encodeX (patternX po xo) rt ra rb) = rb := by
  simp [fieldRT, fieldRA, fieldRB, encodeX, BitVec.extractLsb'_or, patternX_at, regBits_fields]

end Sys2Proof
end

