-- ==== Sys2Proof/Laws/Memory.lean ====
section
/-! SUPPORT. The laws of memory: reading after a write, the canonical form, and what MemRead and MemWrite can do. -/

namespace Sys2Proof.Machine

/-! ### One byte -/

theorem read?_write_self (m : Memory) (a : Nat) (b : Byte) : Memory.read? (Memory.write m a b) a = some b := by
  induction m with
  | nil => simp [Memory.write, Memory.read?]
  | cons c m ih =>
    obtain ⟨k, c⟩ := c
    unfold Memory.write
    split
    · simp [Memory.read?]
    · split
      · simp [Memory.read?]
      · simp [Memory.read?, *]

theorem read?_write_ne (m : Memory) {a a' : Nat} (b : Byte) (h : a' ≠ a) :
    Memory.read? (Memory.write m a b) a' = Memory.read? m a' := by
  induction m with
  | nil => simp [Memory.write, Memory.read?, h.symm]
  | cons c m ih =>
    obtain ⟨k, c⟩ := c
    unfold Memory.write
    split
    · simp [Memory.read?, h.symm]
    · split
      · subst_vars; simp [Memory.read?, h.symm]
      · simp [Memory.read?, ih]

theorem read?_write (m : Memory) (a a' : Nat) (b : Byte) :
    Memory.read? (Memory.write m a b) a' = if a' = a then some b else Memory.read? m a' := by
  split
  · rename_i h; rw [h, read?_write_self]
  · exact read?_write_ne m b ‹_›

/-- A write lists the written address and nothing else that was not listed. -/
theorem mem_write {m : Memory} {a : Nat} {b : Byte} {c : Host.Cell} (h : c ∈ Memory.write m a b) :
    c = (a, b) ∨ c ∈ m := by
  induction m with
  | nil => simpa [Memory.write] using h
  | cons e m ih =>
    obtain ⟨k, e⟩ := e
    unfold Memory.write at h
    split at h
    · simpa using h
    · split at h
      · rcases List.mem_cons.1 h with h | h
        · exact .inl h
        · exact .inr (List.mem_cons_of_mem _ h)
      · rcases List.mem_cons.1 h with h | h
        · exact .inr (h ▸ List.mem_cons_self)
        · exact (ih h).imp_right (List.mem_cons_of_mem _)

/-- Writing a byte keeps the canonical form. -/
theorem write_wf {m : Memory} {a : Nat} {b : Byte} (hm : Memory.wf m) (ha : a < 2 ^ 64) :
    Memory.wf (Memory.write m a b) := by
  refine ⟨?_, fun c hc => (mem_write hc).elim (fun h => h ▸ ha) (hm.2 c)⟩
  have hp := hm.1
  clear hm
  induction m with
  | nil => simp [Memory.write]
  | cons e m ih =>
    obtain ⟨k, e⟩ := e
    rw [List.pairwise_cons] at hp
    unfold Memory.write
    split
    · refine List.pairwise_cons.2 ⟨fun c hc => ?_, List.pairwise_cons.2 hp⟩
      rcases List.mem_cons.1 hc with rfl | hc
      · assumption
      · exact lt_trans ‹_› (hp.1 c hc)
    · split
      · subst_vars; exact List.pairwise_cons.2 hp
      · refine List.pairwise_cons.2 ⟨fun c hc => ?_, ih hp.2⟩
        rcases mem_write hc with rfl | hc
        · show k < a; omega
        · exact hp.1 c hc

/-! ### The bytes of an access -/

theorem byteAddr_lt (a : Addr) (i : Nat) : byteAddr a i < 2 ^ 64 := Nat.mod_lt _ (by norm_num)

/-- Two offsets of one access name two addresses. -/
theorem byteAddr_inj {a : Addr} {i j : Nat} (hi : i < 2 ^ 64) (hj : j < 2 ^ 64) (h : byteAddr a i = byteAddr a j) :
    i = j := by
  unfold byteAddr at h; omega

theorem writeBytes_wf (order : ByteOrder) (a : Addr) (n : Nat) (v : BitVec (8 * n)) (count : Nat) :
    ∀ (i : Nat) (m : Memory), Memory.wf m → Memory.wf (writeBytes order a n v i count m) := by
  induction count with
  | zero => intro i m h; exact h
  | succ c ih => intro i m h; exact ih _ _ (write_wf h (byteAddr_lt a i))

theorem mem_writeBytes (order : ByteOrder) (a : Addr) (n : Nat) (v : BitVec (8 * n)) (count : Nat) :
    ∀ (i : Nat) (m : Memory) (c : Host.Cell), c ∈ writeBytes order a n v i count m →
      c ∈ m ∨ ∃ k, i ≤ k ∧ k < i + count ∧ c.1 = byteAddr a k := by
  induction count with
  | zero => intro i m c h; exact .inl h
  | succ n' ih =>
    intro i m c h
    rcases ih _ _ _ h with h | ⟨k, h1, h2, h3⟩
    · rcases mem_write h with rfl | h
      · exact .inr ⟨i, le_refl i, by omega, rfl⟩
      · exact .inl h
    · exact .inr ⟨k, by omega, by omega, h3⟩

/-- Outside the bytes of the access every byte reads as before. -/
theorem read?_writeBytes_outside (order : ByteOrder) (a : Addr) (n : Nat) (v : BitVec (8 * n)) (count : Nat) :
    ∀ (i : Nat) (m : Memory) (addr : Nat), (∀ k, i ≤ k → k < i + count → addr ≠ byteAddr a k) →
      Memory.read? (writeBytes order a n v i count m) addr = Memory.read? m addr := by
  induction count with
  | zero => intro i m addr _; rfl
  | succ c ih =>
    intro i m addr h
    refine (ih (i + 1) _ addr fun k h1 h2 => h k (by omega) (by omega)).trans ?_
    exact read?_write_ne m _ (h i (le_refl i) (by omega))

/-- Inside, byte k reads as the byte of the value that R31 puts at offset k. -/
theorem read?_writeBytes_inside (order : ByteOrder) (a : Addr) (n : Nat) (v : BitVec (8 * n)) (count : Nat) :
    ∀ (i : Nat) (m : Memory) (k : Nat), i + count ≤ 2 ^ 64 → i ≤ k → k < i + count →
      Memory.read? (writeBytes order a n v i count m) (byteAddr a k) = some (byteOf order n v k) := by
  induction count with
  | zero => intro i m k _ h1 h2; omega
  | succ c ih =>
    intro i m k hb h1 h2
    by_cases hk : k = i
    · subst hk
      refine (read?_writeBytes_outside order a n v c (k + 1) _ _ fun j hj1 hj2 he => ?_).trans (read?_write_self _ _ _)
      have := byteAddr_inj (by omega) (by omega) he
      omega
    · exact ih (i + 1) _ k (by omega) (by omega) (by omega)

/-! ### The bytes a load reads -/

theorem textByte?_of_not_inText {l : Launch} {addr : Nat} (h : l.inText addr = false) : textByte? l addr = none := by
  simp [textByte?, h]

/-- Outside the program text a load reads what memory holds. -/
theorem byte?_of_not_inText {s : State} {addr : Nat} (h : s.launch.inText addr = false) :
    s.byte? addr = Memory.read? s.mem addr := by
  simp [State.byte?, textByte?_of_not_inText h]

/-- What a load reads is what memory holds, and in the program text it is the text's byte. -/
theorem byte?_some {s : State} {addr : Nat} {b : Byte} (h : s.byte? addr = some b) :
    Memory.read? s.mem addr = some b ∧ ∀ t, textByte? s.launch addr = some t → b = t := by
  unfold State.byte? at h
  split at h
  · rename_i ht
    exact ⟨h, fun t e => by simp [ht] at e⟩
  · rename_i t ht
    split at h
    · rename_i hm
      cases h
      exact ⟨hm, fun u e => by rw [ht] at e; exact Option.some.inj e⟩
    · cases h

/-- The bytes read are the bytes of memory, in order. -/
theorem readBytes_ok {s : State} {a : Addr} {count : Nat} :
    ∀ {i : Nat} {bs : List Byte}, readBytes s a i count = .ok bs →
      bs.length = count ∧ ∀ k, k < count → bs[k]? = s.byte? (byteAddr a (i + k)) := by
  induction count with
  | zero =>
    intro i bs h
    simp only [readBytes, Except.ok.injEq] at h
    subst h
    exact ⟨rfl, fun k hk => by omega⟩
  | succ c ih =>
    intro i bs h
    unfold readBytes at h
    split at h
    · cases h
    · split at h
      · cases h
      · rename_i hb _ bs' hbs'
        cases h
        obtain ⟨h1, h2⟩ := ih hbs'
        refine ⟨by simp [h1], fun k hk => ?_⟩
        cases k with
        | zero => simp [hb]
        | succ k => simpa [Nat.add_right_comm, Nat.add_assoc, Nat.add_comm 1 k] using h2 k (by omega)

/-! ### What MemRead and MemWrite can do -/

/-- A MemRead that answers a value passed the tests of R32 and assembled the bytes it read. -/
theorem memRead_ok {s : State} {a : Addr} {n : Nat} {v : BitVec (8 * n)} (h : memRead s a n = .ok v) :
    s.misalignedFaults a n = false ∧ s.mapped a n = true ∧
      ∃ bs, readBytes s a 0 n = .ok bs ∧ v = assemble s.launch.byteOrder n bs := by
  unfold memRead at h
  split at h
  · cases h
  · split at h
    · cases h
    · split at h
      · cases h
      · rename_i h1 h2 _ bs hbs
        cases h
        exact ⟨by simpa using h1, by simpa using h2, bs, hbs, rfl⟩

/-- A MemWrite that answers a state passed the tests of R33 and changed memory alone. -/
theorem memWrite_ok {s t : State} {a : Addr} {n : Nat} {v : BitVec (8 * n)} (h : memWrite s a n v = .ok t) :
    s.misalignedFaults a n = false ∧ s.mapped a n = true ∧ s.touchesText a n = false ∧
      t = { s with mem := writeBytes s.launch.byteOrder a n v 0 n s.mem } := by
  unfold memWrite at h
  split at h
  · cases h
  · split at h
    · cases h
    · split at h
      · cases h
      · rename_i h1 h2 h3
        cases h
        exact ⟨by simpa using h1, by simpa using h2, by simpa using h3, rfl⟩

/-- A MemWrite keeps the canonical form. -/
theorem memWrite_wf {s t : State} {a : Addr} {n : Nat} {v : BitVec (8 * n)} (h : memWrite s a n v = .ok t)
    (hm : Memory.wf s.mem) : Memory.wf t.mem := by
  obtain ⟨-, -, -, rfl⟩ := memWrite_ok h
  exact writeBytes_wf _ _ _ _ _ _ _ hm

theorem reset_mem_wf : Memory.wf State.reset.mem := by decide

end Sys2Proof.Machine
end

