-- ==== Sys2Proof/Laws/State.lean ====
section
/-! SUPPORT. One lemma per field per update of State, and what a register reads after a write. -/

namespace Sys2Proof.Machine

variable (s : State) (r r' : Reg) (v : Word)

/-! ### writeGpr -/

@[simp] theorem writeGpr_launch : (s.writeGpr r v).launch = s.launch := rfl
@[simp] theorem writeGpr_gpr : (s.writeGpr r v).gpr = s.gpr.set r v := rfl
@[simp] theorem writeGpr_fpr : (s.writeGpr r v).fpr = s.fpr := rfl
@[simp] theorem writeGpr_pc : (s.writeGpr r v).pc = s.pc := rfl
@[simp] theorem writeGpr_mem : (s.writeGpr r v).mem = s.mem := rfl
@[simp] theorem writeGpr_faultRecord : (s.writeGpr r v).faultRecord = s.faultRecord := rfl
@[simp] theorem writeGpr_draws : (s.writeGpr r v).draws = s.draws := rfl

/-! ### writeFpr -/

@[simp] theorem writeFpr_launch : (s.writeFpr r v).launch = s.launch := rfl
@[simp] theorem writeFpr_gpr : (s.writeFpr r v).gpr = s.gpr := rfl
@[simp] theorem writeFpr_fpr : (s.writeFpr r v).fpr = s.fpr.set r v := rfl
@[simp] theorem writeFpr_pc : (s.writeFpr r v).pc = s.pc := rfl
@[simp] theorem writeFpr_mem : (s.writeFpr r v).mem = s.mem := rfl
@[simp] theorem writeFpr_faultRecord : (s.writeFpr r v).faultRecord = s.faultRecord := rfl
@[simp] theorem writeFpr_draws : (s.writeFpr r v).draws = s.draws := rfl

/-! ### advancePc -/

@[simp] theorem advancePc_launch : s.advancePc.launch = s.launch := rfl
@[simp] theorem advancePc_gpr : s.advancePc.gpr = s.gpr := rfl
@[simp] theorem advancePc_fpr : s.advancePc.fpr = s.fpr := rfl
@[simp] theorem advancePc_pc : s.advancePc.pc = s.pc + 4#64 := rfl
@[simp] theorem advancePc_mem : s.advancePc.mem = s.mem := rfl
@[simp] theorem advancePc_faultRecord : s.advancePc.faultRecord = s.faultRecord := rfl
@[simp] theorem advancePc_draws : s.advancePc.draws = s.draws := rfl

/-! ### record -/

variable (x : Stop)

@[simp] theorem record_launch : (s.record x).launch = s.launch := by unfold State.record; split <;> rfl
@[simp] theorem record_gpr : (s.record x).gpr = s.gpr := by unfold State.record; split <;> rfl
@[simp] theorem record_fpr : (s.record x).fpr = s.fpr := by unfold State.record; split <;> rfl
@[simp] theorem record_pc : (s.record x).pc = s.pc := by unfold State.record; split <;> rfl
@[simp] theorem record_mem : (s.record x).mem = s.mem := by unfold State.record; split <;> rfl
@[simp] theorem record_draws : (s.record x).draws = s.draws := by unfold State.record; split <;> rfl

theorem record_faultRecord :
    (s.record x).faultRecord = if x.recorded then s.faultRecord ++ [⟨x, s.pc⟩] else s.faultRecord := by
  unfold State.record; split <;> rfl

/-! ### launched -/

variable (l : Launch) (g f : Vector Word 32) (m : Memory)

@[simp] theorem launched_launch : (State.launched l g f m).launch = l := rfl
@[simp] theorem launched_gpr : (State.launched l g f m).gpr = g := rfl
@[simp] theorem launched_fpr : (State.launched l g f m).fpr = f := rfl
@[simp] theorem launched_pc : (State.launched l g f m).pc = l.textBase := rfl
@[simp] theorem launched_mem : (State.launched l g f m).mem = m := rfl
@[simp] theorem launched_faultRecord : (State.launched l g f m).faultRecord = [] := rfl
@[simp] theorem launched_draws : (State.launched l g f m).draws = 0 := rfl

/-! ### Reading a register after a write -/

theorem readGpr_writeGpr_self : (s.writeGpr r v).readGpr r = v := by
  simp [State.readGpr, State.writeGpr, Vector.get_eq_getElem]

theorem readGpr_writeGpr_ne (h : r ≠ r') : (s.writeGpr r v).readGpr r' = s.readGpr r' := by
  have : r.val ≠ r'.val := fun e => h (Fin.ext e)
  simp [State.readGpr, State.writeGpr, Vector.get_eq_getElem, Vector.getElem_set_ne, this]

theorem readFpr_writeFpr_self : (s.writeFpr r v).readFpr r = v := by
  simp [State.readFpr, State.writeFpr, Vector.get_eq_getElem]

theorem readFpr_writeFpr_ne (h : r ≠ r') : (s.writeFpr r v).readFpr r' = s.readFpr r' := by
  have : r.val ≠ r'.val := fun e => h (Fin.ext e)
  simp [State.readFpr, State.writeFpr, Vector.get_eq_getElem, Vector.getElem_set_ne, this]

end Sys2Proof.Machine
end

