-- ==== Sys2Proof/Laws/Exec.lean ====
section
/-! SUPPORT. What each shared template, and so each instruction, can do: one inversion lemma per template and one for exec.
The provers cite these instead of unfolding a meaning. -/

namespace Sys2Proof.Machine

theorem raise_ne_next (x : Stop) (t : State) : raise x ≠ .next t := by
  cases x <;> simp [raise]

/-- The next state of a fixed-point load (R70 lines 5 to 8). -/
theorem fixedLoad_next {insn : Insn} {n : Nat} {ext : BitVec (8 * n) → Word} {rt ra : Reg} {inc : Word} {s t : State}
    (h : fixedLoad insn n ext rt ra inc s = .next t) :
    ra ≠ 0 ∧ ra ≠ rt ∧ ∃ m, memRead s (s.readGpr ra) n = .ok m ∧
      t = ((s.writeGpr rt (ext m)).writeGpr ra (s.readGpr ra + inc)).advancePc := by
  unfold fixedLoad at h
  split at h
  · exact absurd h (raise_ne_next _ _)
  · rename_i hf
    push Not at hf
    split at h
    · exact absurd h (raise_ne_next _ _)
    · cases h
      exact ⟨hf.1, hf.2, _, ‹_›, rfl⟩

/-- The next state of a fixed-point store (R85 lines 7 to 9). -/
theorem fixedStore_next {insn : Insn} {n : Nat} {rs ra : Reg} {inc : Word} {s t : State}
    (h : fixedStore insn n rs ra inc s = .next t) :
    ra ≠ 0 ∧ ∃ u, memWrite s (s.readGpr ra) n (lowBytes n (s.readGpr rs)) = .ok u ∧
      t = (u.writeGpr ra (s.readGpr ra + inc)).advancePc := by
  unfold fixedStore at h
  split at h
  · exact absurd h (raise_ne_next _ _)
  · split at h
    · exact absurd h (raise_ne_next _ _)
    · cases h
      exact ⟨‹_›, _, ‹_›, rfl⟩

/-- The next state of a floating-point load (R100). -/
theorem fpLoad_next {i : Instr} {n : Nat} {conv : BitVec (8 * n) → Word} {frt ra : Reg} {inc : Word} {s t : State}
    (h : fpLoad i n conv frt ra inc s = .next t) :
    s.launch.admitFp = true ∧ ra ≠ 0 ∧ ∃ m, memRead s (s.readGpr ra) n = .ok m ∧
      t = ((s.writeFpr frt (conv m)).writeGpr ra (s.readGpr ra + inc)).advancePc := by
  unfold fpLoad at h
  split at h
  · exact absurd h (raise_ne_next _ _)
  · split at h
    · exact absurd h (raise_ne_next _ _)
    · split at h
      · exact absurd h (raise_ne_next _ _)
      · rename_i h1 _ _ _ _
        cases h
        exact ⟨by simpa using h1, ‹_›, _, ‹_›, rfl⟩

/-- The next state of a floating-point store (R100). -/
theorem fpStore_next {i : Instr} {n : Nat} {conv : Word → State → BitVec (8 * n) × State} {frs ra : Reg} {inc : Word}
    {s t : State} (h : fpStore i n conv frs ra inc s = .next t) :
    s.launch.admitFp = true ∧ ra ≠ 0 ∧
      ∃ u, memWrite (conv (s.readFpr frs) s).2 (s.readGpr ra) n (conv (s.readFpr frs) s).1 = .ok u ∧
        t = (u.writeGpr ra (s.readGpr ra + inc)).advancePc := by
  unfold fpStore at h
  split at h
  · exact absurd h (raise_ne_next _ _)
  · split at h
    · exact absurd h (raise_ne_next _ _)
    · split at h
      · exact absurd h (raise_ne_next _ _)
      · rename_i h1 _ _ _ _
        cases h
        exact ⟨by simpa using h1, ‹_›, _, ‹_›, rfl⟩

/-- With the recommended conversions a launch widens as R101 says. -/
theorem singleToDouble_recommended {l : Launch} (h : l.fpConversions = .recommended) (w : BitVec 32) :
    singleToDouble l w = fpSingleToDouble w := by
  simp [singleToDouble, h]

/-- With the recommended conversions a launch narrows as R102 says. -/
theorem doubleToSingle_recommended {l : Launch} (h : l.fpConversions = .recommended) (d : Word) :
    doubleToSingle l d = fpDoubleToSingle d := by
  simp [doubleToSingle, h]

/-- A single-precision store draws a free value or none, and touches nothing else of the state (R102). -/
theorem singleToStore_snd (d : Word) (s : State) : ∃ k, (singleToStore d s).2 = { s with draws := k } := by
  unfold singleToStore
  split
  · exact ⟨s.draws, rfl⟩
  · exact ⟨s.draws + 1, rfl⟩

/-- Everything an instruction that completes can do: a fixed-point load, a floating-point load, or a store. -/
inductive Completes (i : Instr) (s t : State) : Prop where
  | fixedLoad {n : Nat} {ra rt : Reg} (v inc : Word) (acc : i.loadAccess = some (ra, n)) (tgt : i.gprTarget = some rt)
      (noStore : i.storeAccess = none) (noFpr : i.fprTarget = none) (base : ra ≠ 0) (distinct : ra ≠ rt)
      (read : ∃ m, memRead s (s.readGpr ra) n = .ok m)
      (result : t = ((s.writeGpr rt v).writeGpr ra (s.readGpr ra + inc)).advancePc)
  | fpLoad {n : Nat} {ra frt : Reg} (v inc : Word) (acc : i.loadAccess = some (ra, n)) (tgt : i.fprTarget = some frt)
      (noStore : i.storeAccess = none) (noGpr : i.gprTarget = none) (base : ra ≠ 0) (admitted : s.launch.admitFp = true)
      (read : ∃ m, memRead s (s.readGpr ra) n = .ok m)
      (result : t = ((s.writeFpr frt v).writeGpr ra (s.readGpr ra + inc)).advancePc)
  | store {n : Nat} {ra : Reg} (v : BitVec (8 * n)) (u : State) (k : Nat) (inc : Word)
      (acc : i.storeAccess = some (ra, n)) (noLoad : i.loadAccess = none)
      (noGpr : i.gprTarget = none) (noFpr : i.fprTarget = none) (base : ra ≠ 0)
      (admitted : i.isFp = true → s.launch.admitFp = true) (drawn : i.fprSource = none → k = s.draws)
      (wrote : memWrite { s with draws := k } (s.readGpr ra) n v = .ok u)
      (result : t = (u.writeGpr ra (s.readGpr ra + inc)).advancePc)

theorem completes_fixedLoad {i : Instr} {insn : Insn} {n : Nat} {ext : BitVec (8 * n) → Word} {rt ra : Reg} {inc : Word}
    {s t : State} (h : fixedLoad insn n ext rt ra inc s = .next t) (acc : i.loadAccess = some (ra, n))
    (tgt : i.gprTarget = some rt) (noStore : i.storeAccess = none) (noFpr : i.fprTarget = none) : Completes i s t := by
  obtain ⟨h0, h1, m, hm, rfl⟩ := fixedLoad_next h
  exact .fixedLoad _ _ acc tgt noStore noFpr h0 h1 ⟨m, hm⟩ rfl

theorem completes_fixedStore {i : Instr} {insn : Insn} {n : Nat} {rs ra : Reg} {inc : Word} {s t : State}
    (h : fixedStore insn n rs ra inc s = .next t) (acc : i.storeAccess = some (ra, n)) (noLoad : i.loadAccess = none)
    (noGpr : i.gprTarget = none) (noFpr : i.fprTarget = none) (notFp : i.isFp = false) : Completes i s t := by
  obtain ⟨h0, u, hu, rfl⟩ := fixedStore_next h
  exact .store _ u s.draws inc acc noLoad noGpr noFpr h0 (by simp [notFp]) (fun _ => rfl) hu rfl

theorem completes_fpLoad {i j : Instr} {n : Nat} {conv : BitVec (8 * n) → Word} {frt ra : Reg} {inc : Word}
    {s t : State} (h : fpLoad j n conv frt ra inc s = .next t) (acc : i.loadAccess = some (ra, n))
    (tgt : i.fprTarget = some frt) (noStore : i.storeAccess = none) (noGpr : i.gprTarget = none) : Completes i s t := by
  obtain ⟨h0, h1, m, hm, rfl⟩ := fpLoad_next h
  exact .fpLoad _ _ acc tgt noStore noGpr h1 h0 ⟨m, hm⟩ rfl

theorem completes_fpStore {i j : Instr} {n : Nat} {conv : Word → State → BitVec (8 * n) × State} {frs ra : Reg}
    {inc : Word} {s t : State} (h : fpStore j n conv frs ra inc s = .next t) (acc : i.storeAccess = some (ra, n))
    (noLoad : i.loadAccess = none) (noGpr : i.gprTarget = none) (noFpr : i.fprTarget = none)
    (source : i.fprSource ≠ none) (conv_state : ∀ d s, ∃ k, (conv d s).2 = { s with draws := k }) : Completes i s t := by
  obtain ⟨h0, h1, u, hu, rfl⟩ := fpStore_next h
  obtain ⟨k, hk⟩ := conv_state (s.readFpr frs) s
  rw [hk] at hu
  exact .store _ u k inc acc noLoad noGpr noFpr h1 (fun _ => h0) (fun e => absurd e source) hu rfl

theorem doubleToStore_snd (d : Word) (s : State) : ∃ k, (doubleToStore d s).2 = { s with draws := k } := ⟨s.draws, rfl⟩

theorem listedOnly_ne_next (m : String) (t : State) : listedOnly m ≠ .next t := raise_ne_next _ _

/-- What exec can do when it answers a next state. -/
theorem exec_next {i : Instr} {s t : State} (h : exec i s = .next t) : Completes i s t := by
  cases i
  case lbzup rt ra d => exact completes_fixedLoad (i := .lbzup rt ra d) h rfl rfl rfl rfl
  case lbzupx rt ra rb => exact completes_fixedLoad (i := .lbzupx rt ra rb) h rfl rfl rfl rfl
  case lhzup rt ra d => exact completes_fixedLoad (i := .lhzup rt ra d) h rfl rfl rfl rfl
  case lhzupx rt ra rb => exact completes_fixedLoad (i := .lhzupx rt ra rb) h rfl rfl rfl rfl
  case lhaup rt ra d => exact completes_fixedLoad (i := .lhaup rt ra d) h rfl rfl rfl rfl
  case lhaupx rt ra rb => exact completes_fixedLoad (i := .lhaupx rt ra rb) h rfl rfl rfl rfl
  case lwzup rt ra d => exact completes_fixedLoad (i := .lwzup rt ra d) h rfl rfl rfl rfl
  case lwzupx rt ra rb => exact completes_fixedLoad (i := .lwzupx rt ra rb) h rfl rfl rfl rfl
  case lwaupx rt ra rb => exact completes_fixedLoad (i := .lwaupx rt ra rb) h rfl rfl rfl rfl
  case ldup rt ra ds => exact completes_fixedLoad (i := .ldup rt ra ds) h rfl rfl rfl rfl
  case ldupx rt ra rb => exact completes_fixedLoad (i := .ldupx rt ra rb) h rfl rfl rfl rfl
  case stbup rs ra d => exact completes_fixedStore (i := .stbup rs ra d) h rfl rfl rfl rfl rfl
  case stbupx rs ra rb => exact completes_fixedStore (i := .stbupx rs ra rb) h rfl rfl rfl rfl rfl
  case sthup rs ra d => exact completes_fixedStore (i := .sthup rs ra d) h rfl rfl rfl rfl rfl
  case sthupx rs ra rb => exact completes_fixedStore (i := .sthupx rs ra rb) h rfl rfl rfl rfl rfl
  case stwup rs ra d => exact completes_fixedStore (i := .stwup rs ra d) h rfl rfl rfl rfl rfl
  case stwupx rs ra rb => exact completes_fixedStore (i := .stwupx rs ra rb) h rfl rfl rfl rfl rfl
  case stdup rs ra ds => exact completes_fixedStore (i := .stdup rs ra ds) h rfl rfl rfl rfl rfl
  case stdupx rs ra rb => exact completes_fixedStore (i := .stdupx rs ra rb) h rfl rfl rfl rfl rfl
  case lfdup frt ra d => exact completes_fpLoad (i := .lfdup frt ra d) h rfl rfl rfl rfl
  case lfsup frt ra d => exact completes_fpLoad (i := .lfsup frt ra d) h rfl rfl rfl rfl
  case lfdupx frt ra rb => exact completes_fpLoad (i := .lfdupx frt ra rb) h rfl rfl rfl rfl
  case lfsupx frt ra rb => exact completes_fpLoad (i := .lfsupx frt ra rb) h rfl rfl rfl rfl
  case stfdup frs ra d =>
    exact completes_fpStore (i := .stfdup frs ra d) h rfl rfl rfl rfl (Option.some_ne_none _) doubleToStore_snd
  case stfsup frs ra d =>
    exact completes_fpStore (i := .stfsup frs ra d) h rfl rfl rfl rfl (Option.some_ne_none _) singleToStore_snd
  case stfdupx frs ra rb =>
    exact completes_fpStore (i := .stfdupx frs ra rb) h rfl rfl rfl rfl (Option.some_ne_none _) doubleToStore_snd
  case stfsupx frs ra rb =>
    exact completes_fpStore (i := .stfsupx frs ra rb) h rfl rfl rfl rfl (Option.some_ne_none _) singleToStore_snd
  all_goals exact absurd h (listedOnly_ne_next _ _)

/-- A step that completes ran the instruction at pc, in a state that is not final and has no fault recorded. -/
theorem step_next {s t : State} (h : step s = .next t) :
    s.faultRecord = [] ∧ s.atTextEnd = false ∧
      ∃ w i, s.fetch = some w ∧ decode s.launch.opcodes w = .ok i ∧ s.current = .ok i ∧ exec i s = .next t := by
  unfold step at h
  split at h
  · exact absurd h (raise_ne_next _ _)
  · rename_i i hc
    have hcur := hc
    unfold State.current at hc
    split at hc
    · cases hc
    · rename_i hr
      split at hc
      · cases hc
      · rename_i hf
        have hr' : s.faultRecord = [] := by simpa using hr
        have hf' : s.atTextEnd = false := by simpa [State.isFinal, hr'] using hf
        split at hc
        · cases hc
        · split at hc
          · cases hc
          · cases hc
            exact ⟨hr', hf', _, _, ‹_›, ‹_›, hcur, h⟩

end Sys2Proof.Machine
end

