-- ==== Sys2Proof/Laws/PerInstr.lean ====
section
/-! SUPPORT. Per instruction: its word, where it has one, is accepted by the row of its own mnemonic, under every allocation
(spec/30_encoding.md R59, R67); the 14 shifted mnemonics have no word (spec/43_shifted_postupdate.md R115). -/

namespace Sys2Proof.Laws.EncodesToRow

def Statement (i : Instr) : Prop :=
  ∀ ops : Opcodes,
    match encode ops i with
    | some w => ∃ r ∈ opcodeTable ops, r.mnemonic = i.mnemonic ∧ r.accepts w = true
    | none   => i.encodable = false

theorem of_encodeD {i : Instr} {ops : Opcodes} {m : String} {po : BitVec 6} {make : Reg → Reg → BitVec 16 → Instr}
    {rt ra : Reg} {d : BitVec 16} (hr : rowD m po make ∈ opcodeTable ops) (hm : m = i.mnemonic) :
    ∃ r ∈ opcodeTable ops, r.mnemonic = i.mnemonic ∧ r.accepts (encodeD (patternD po) rt ra d) = true :=
  ⟨_, hr, hm, beq_iff_eq.2 (encodeD_mask po rt ra d)⟩

theorem of_encodeDS {i : Instr} {ops : Opcodes} {m : String} {po : BitVec 6} {xo : BitVec 2}
    {make : Reg → Reg → BitVec 14 → Instr} {rt ra : Reg} {ds : BitVec 14} (hr : rowDS m po xo make ∈ opcodeTable ops)
    (hm : m = i.mnemonic) :
    ∃ r ∈ opcodeTable ops, r.mnemonic = i.mnemonic ∧ r.accepts (encodeDS (patternDS po xo) rt ra ds) = true :=
  ⟨_, hr, hm, beq_iff_eq.2 (encodeDS_mask po xo rt ra ds)⟩

theorem of_encodeX {i : Instr} {ops : Opcodes} {m : String} {po : BitVec 6} {xo : BitVec 10}
    {make : Reg → Reg → Reg → Instr} {rt ra rb : Reg} (hr : rowX m po xo make ∈ opcodeTable ops) (hm : m = i.mnemonic) :
    ∃ r ∈ opcodeTable ops, r.mnemonic = i.mnemonic ∧ r.accepts (encodeX (patternX po xo) rt ra rb) = true :=
  ⟨_, hr, hm, beq_iff_eq.2 (encodeX_mask po xo rt ra rb)⟩

theorem lbzup (rt ra : Reg) (d : BitVec 16) : Statement (.lbzup rt ra d) :=
  fun ops => of_encodeD (make := .lbzup) (List.mem_append_left _ (List.getElem_mem (n := 1) (l := opcodeRowsImmediate ops) (by simp [opcodeRowsImmediate]))) rfl

theorem lbzupx (rt ra rb : Reg) : Statement (.lbzupx rt ra rb) :=
  fun ops => of_encodeX (make := .lbzupx) (List.mem_append_right _ (List.getElem_mem (n := 2) (l := opcodeRowsIndexed ops) (by simp [opcodeRowsIndexed]))) rfl

theorem lhzup (rt ra : Reg) (d : BitVec 16) : Statement (.lhzup rt ra d) :=
  fun ops => of_encodeD (make := .lhzup) (List.mem_append_left _ (List.getElem_mem (n := 4) (l := opcodeRowsImmediate ops) (by simp [opcodeRowsImmediate]))) rfl

theorem lhzupx (rt ra rb : Reg) : Statement (.lhzupx rt ra rb) :=
  fun ops => of_encodeX (make := .lhzupx) (List.mem_append_right _ (List.getElem_mem (n := 6) (l := opcodeRowsIndexed ops) (by simp [opcodeRowsIndexed]))) rfl

theorem lhaup (rt ra : Reg) (d : BitVec 16) : Statement (.lhaup rt ra d) :=
  fun ops => of_encodeD (make := .lhaup) (List.mem_append_left _ (List.getElem_mem (n := 5) (l := opcodeRowsImmediate ops) (by simp [opcodeRowsImmediate]))) rfl

theorem lhaupx (rt ra rb : Reg) : Statement (.lhaupx rt ra rb) :=
  fun ops => of_encodeX (make := .lhaupx) (List.mem_append_right _ (List.getElem_mem (n := 8) (l := opcodeRowsIndexed ops) (by simp [opcodeRowsIndexed]))) rfl

theorem lwzup (rt ra : Reg) (d : BitVec 16) : Statement (.lwzup rt ra d) :=
  fun ops => of_encodeD (make := .lwzup) (List.mem_append_left _ (List.getElem_mem (n := 0) (l := opcodeRowsImmediate ops) (by simp [opcodeRowsImmediate]))) rfl

theorem lwzupx (rt ra rb : Reg) : Statement (.lwzupx rt ra rb) :=
  fun ops => of_encodeX (make := .lwzupx) (List.mem_append_right _ (List.getElem_mem (n := 1) (l := opcodeRowsIndexed ops) (by simp [opcodeRowsIndexed]))) rfl

theorem lwaupx (rt ra rb : Reg) : Statement (.lwaupx rt ra rb) :=
  fun ops => of_encodeX (make := .lwaupx) (List.mem_append_right _ (List.getElem_mem (n := 7) (l := opcodeRowsIndexed ops) (by simp [opcodeRowsIndexed]))) rfl

theorem ldup (rt ra : Reg) (ds : BitVec 14) : Statement (.ldup rt ra ds) :=
  fun ops => of_encodeDS (make := .ldup) (List.mem_append_left _ (List.getElem_mem (n := 11) (l := opcodeRowsImmediate ops) (by simp [opcodeRowsImmediate]))) rfl

theorem ldupx (rt ra rb : Reg) : Statement (.ldupx rt ra rb) :=
  fun ops => of_encodeX (make := .ldupx) (List.mem_append_right _ (List.getElem_mem (n := 0) (l := opcodeRowsIndexed ops) (by simp [opcodeRowsIndexed]))) rfl

theorem stbup (rs ra : Reg) (d : BitVec 16) : Statement (.stbup rs ra d) :=
  fun ops => of_encodeD (make := .stbup) (List.mem_append_left _ (List.getElem_mem (n := 3) (l := opcodeRowsImmediate ops) (by simp [opcodeRowsImmediate]))) rfl

theorem stbupx (rs ra rb : Reg) : Statement (.stbupx rs ra rb) :=
  fun ops => of_encodeX (make := .stbupx) (List.mem_append_right _ (List.getElem_mem (n := 5) (l := opcodeRowsIndexed ops) (by simp [opcodeRowsIndexed]))) rfl

theorem sthup (rs ra : Reg) (d : BitVec 16) : Statement (.sthup rs ra d) :=
  fun ops => of_encodeD (make := .sthup) (List.mem_append_left _ (List.getElem_mem (n := 6) (l := opcodeRowsImmediate ops) (by simp [opcodeRowsImmediate]))) rfl

theorem sthupx (rs ra rb : Reg) : Statement (.sthupx rs ra rb) :=
  fun ops => of_encodeX (make := .sthupx) (List.mem_append_right _ (List.getElem_mem (n := 9) (l := opcodeRowsIndexed ops) (by simp [opcodeRowsIndexed]))) rfl

theorem stwup (rs ra : Reg) (d : BitVec 16) : Statement (.stwup rs ra d) :=
  fun ops => of_encodeD (make := .stwup) (List.mem_append_left _ (List.getElem_mem (n := 2) (l := opcodeRowsImmediate ops) (by simp [opcodeRowsImmediate]))) rfl

theorem stwupx (rs ra rb : Reg) : Statement (.stwupx rs ra rb) :=
  fun ops => of_encodeX (make := .stwupx) (List.mem_append_right _ (List.getElem_mem (n := 4) (l := opcodeRowsIndexed ops) (by simp [opcodeRowsIndexed]))) rfl

theorem stdup (rs ra : Reg) (ds : BitVec 14) : Statement (.stdup rs ra ds) :=
  fun ops => of_encodeDS (make := .stdup) (List.mem_append_left _ (List.getElem_mem (n := 12) (l := opcodeRowsImmediate ops) (by simp [opcodeRowsImmediate]))) rfl

theorem stdupx (rs ra rb : Reg) : Statement (.stdupx rs ra rb) :=
  fun ops => of_encodeX (make := .stdupx) (List.mem_append_right _ (List.getElem_mem (n := 3) (l := opcodeRowsIndexed ops) (by simp [opcodeRowsIndexed]))) rfl

theorem lfdup (frt ra : Reg) (d : BitVec 16) : Statement (.lfdup frt ra d) :=
  fun ops => of_encodeD (make := .lfdup) (List.mem_append_left _ (List.getElem_mem (n := 8) (l := opcodeRowsImmediate ops) (by simp [opcodeRowsImmediate]))) rfl

theorem lfsup (frt ra : Reg) (d : BitVec 16) : Statement (.lfsup frt ra d) :=
  fun ops => of_encodeD (make := .lfsup) (List.mem_append_left _ (List.getElem_mem (n := 7) (l := opcodeRowsImmediate ops) (by simp [opcodeRowsImmediate]))) rfl

theorem lfdupx (frt ra rb : Reg) : Statement (.lfdupx frt ra rb) :=
  fun ops => of_encodeX (make := .lfdupx) (List.mem_append_right _ (List.getElem_mem (n := 11) (l := opcodeRowsIndexed ops) (by simp [opcodeRowsIndexed]))) rfl

theorem lfsupx (frt ra rb : Reg) : Statement (.lfsupx frt ra rb) :=
  fun ops => of_encodeX (make := .lfsupx) (List.mem_append_right _ (List.getElem_mem (n := 10) (l := opcodeRowsIndexed ops) (by simp [opcodeRowsIndexed]))) rfl

theorem stfdup (frs ra : Reg) (d : BitVec 16) : Statement (.stfdup frs ra d) :=
  fun ops => of_encodeD (make := .stfdup) (List.mem_append_left _ (List.getElem_mem (n := 10) (l := opcodeRowsImmediate ops) (by simp [opcodeRowsImmediate]))) rfl

theorem stfsup (frs ra : Reg) (d : BitVec 16) : Statement (.stfsup frs ra d) :=
  fun ops => of_encodeD (make := .stfsup) (List.mem_append_left _ (List.getElem_mem (n := 9) (l := opcodeRowsImmediate ops) (by simp [opcodeRowsImmediate]))) rfl

theorem stfdupx (frs ra rb : Reg) : Statement (.stfdupx frs ra rb) :=
  fun ops => of_encodeX (make := .stfdupx) (List.mem_append_right _ (List.getElem_mem (n := 13) (l := opcodeRowsIndexed ops) (by simp [opcodeRowsIndexed]))) rfl

theorem stfsupx (frs ra rb : Reg) : Statement (.stfsupx frs ra rb) :=
  fun ops => of_encodeX (make := .stfsupx) (List.mem_append_right _ (List.getElem_mem (n := 12) (l := opcodeRowsIndexed ops) (by simp [opcodeRowsIndexed]))) rfl

theorem lbzuspx : Statement .lbzuspx := fun _ => rfl

theorem lhzuspx : Statement .lhzuspx := fun _ => rfl

theorem lhauspx : Statement .lhauspx := fun _ => rfl

theorem lwzuspx : Statement .lwzuspx := fun _ => rfl

theorem lwauspx : Statement .lwauspx := fun _ => rfl

theorem lduspx : Statement .lduspx := fun _ => rfl

theorem stbuspx : Statement .stbuspx := fun _ => rfl

theorem sthuspx : Statement .sthuspx := fun _ => rfl

theorem stwuspx : Statement .stwuspx := fun _ => rfl

theorem stduspx : Statement .stduspx := fun _ => rfl

theorem lfdupsx : Statement .lfdupsx := fun _ => rfl

theorem lfsupsx : Statement .lfsupsx := fun _ => rfl

theorem stfdupsx : Statement .stfdupsx := fun _ => rfl

theorem stfsupsx : Statement .stfsupsx := fun _ => rfl

end Sys2Proof.Laws.EncodesToRow
end

