-- ==== Sys2Proof/Tests/Slice0.lean ====
section
/-! SUPPORT. The author's own tests: well-formedness, decoding of words of the spec, single steps whose expected results are the
vectors of spec/95_test_vectors.md (their ids in the comments), and a witness for the hypotheses of every statement. -/

open Sys2Proof Sys2Proof.Machine Sys2Proof.Claims

namespace Sys2Proof.Tests

/-! ### States of the tests and what they are asked -/

/-- The memory image M0 of spec/95_test_vectors.md. -/
def m0 : Memory :=
  [ (0x1000, 0x80#8), (0x1001, 0x01#8), (0x1002, 0xFF#8), (0x1003, 0xFE#8),
    (0x1004, 0x7F#8), (0x1005, 0x00#8), (0x1006, 0x12#8), (0x1007, 0x34#8),
    (0x1008, 0x9A#8), (0x1009, 0xBC#8), (0x100A, 0xDE#8), (0x100B, 0xF0#8),
    (0x100C, 0x11#8), (0x100D, 0x22#8), (0x100E, 0x33#8), (0x100F, 0x44#8) ]

/-- Zero registers but for the named ones. -/
def regs : List (Reg × Word) → Vector Word 32
  | [] => Vector.replicate 32 0#64
  | (r, v) :: rest => (regs rest).set r v

def launchBE : Launch := Launch.default
def launchLE : Launch := { Launch.default with byteOrder := .le }
def launchSplit : Launch := { Launch.default with misaligned := .split }

/-- A launch with one instruction word as its program. -/
def one (l : Launch) (w : Nat) (gpr fpr : List (Reg × Word)) (m : Memory) : State :=
  (State.launched l (regs gpr) (regs fpr) m).withFetchWord 32 w

def gprOf (o : Host.Outcome State Fault Refusal) (r : Reg) : Option Word :=
  match o with
  | .next t => some (t.gpr.get r)
  | .fault _ => none
  | .refused _ => none

def fprOf (o : Host.Outcome State Fault Refusal) (r : Reg) : Option Word :=
  match o with
  | .next t => some (t.fpr.get r)
  | .fault _ => none
  | .refused _ => none

def memOf (o : Host.Outcome State Fault Refusal) : Option Memory :=
  match o with
  | .next t => some t.mem
  | .fault _ => none
  | .refused _ => none

def stopOf (o : Host.Outcome State Fault Refusal) : Option Stop :=
  match o with
  | .next _ => none
  | .fault f => some (.fault f)
  | .refused r => some (.refusal r)

def completes (o : Host.Outcome State Fault Refusal) : Bool := (stopOf o).isNone

theorem next_of_completes {o : Host.Outcome State Fault Refusal} (h : completes o = true) : ∃ t, o = .next t := by
  cases o with
  | next t => exact ⟨t, rfl⟩
  | fault f => cases h
  | refused r => cases h

/-! ### Well-formedness -/

theorem test_wellFormed : (Instr.lbzup 3 4 8#16).wellFormed = true ∧ (Instr.stdup 4 4 2#14).wellFormed = true ∧
    (Instr.lfdup 4 4 8#16).wellFormed = true := by decide

/-- encodable: a shifted mnemonic has no encoding. -/
theorem test_shifted_ill_formed : Instr.lbzuspx.wellFormed = false ∧ Instr.stfsupsx.wellFormed = false := by decide

/-- formOk: RA = 0 (L27, S13, F13, F14). -/
theorem test_base_zero_ill_formed : (Instr.lbzup 3 0 8#16).wellFormed = false ∧ (Instr.stbup 3 0 1#16).wellFormed = false ∧
    (Instr.lfsup 1 0 4#16).wellFormed = false ∧ (Instr.stfdupx 1 0 5).wellFormed = false := by decide

/-- formOk: RA = RT on a load (L28, L29). -/
theorem test_load_target_base_ill_formed : (Instr.lbzup 4 4 8#16).wellFormed = false ∧
    (Instr.ldupx 4 4 5).wellFormed = false ∧ (Instr.lwaupx 4 4 5).wellFormed = false := by decide

/-! ### Decoding: the example words of rules R71 to R81, R86 to R93, R103 to R110, and of 2.5 -/

theorem test_decode_fixed_loads :
    decode Opcodes.p0 0x8C640008#32 = .ok (.lbzup 3 4 8#16) ∧ decode Opcodes.p0 0x7C6428EE#32 = .ok (.lbzupx 3 4 5) ∧
    decode Opcodes.p0 0xA4640002#32 = .ok (.lhzup 3 4 2#16) ∧ decode Opcodes.p0 0x7C642A6E#32 = .ok (.lhzupx 3 4 5) ∧
    decode Opcodes.p0 0xAC64FFFE#32 = .ok (.lhaup 3 4 0xFFFE#16) ∧ decode Opcodes.p0 0x7C642AEE#32 = .ok (.lhaupx 3 4 5) ∧
    decode Opcodes.p0 0x84640004#32 = .ok (.lwzup 3 4 4#16) ∧ decode Opcodes.p0 0x7C64286E#32 = .ok (.lwzupx 3 4 5) ∧
    decode Opcodes.p0 0x7C642AEA#32 = .ok (.lwaupx 3 4 5) ∧ decode Opcodes.p0 0xE8640009#32 = .ok (.ldup 3 4 2#14) ∧
    decode Opcodes.p0 0x7C64286A#32 = .ok (.ldupx 3 4 5) := by decide

theorem test_decode_fixed_stores :
    decode Opcodes.p0 0x9C640001#32 = .ok (.stbup 3 4 1#16) ∧ decode Opcodes.p0 0x7C6429EE#32 = .ok (.stbupx 3 4 5) ∧
    decode Opcodes.p0 0xB4640002#32 = .ok (.sthup 3 4 2#16) ∧ decode Opcodes.p0 0x7C642B6E#32 = .ok (.sthupx 3 4 5) ∧
    decode Opcodes.p0 0x9464FFFC#32 = .ok (.stwup 3 4 0xFFFC#16) ∧ decode Opcodes.p0 0x7C64296E#32 = .ok (.stwupx 3 4 5) ∧
    decode Opcodes.p0 0xF8640009#32 = .ok (.stdup 3 4 2#14) ∧ decode Opcodes.p0 0x7C64296A#32 = .ok (.stdupx 3 4 5) := by decide

theorem test_decode_fp :
    decode Opcodes.p0 0xCC240008#32 = .ok (.lfdup 1 4 8#16) ∧ decode Opcodes.p0 0xC4240004#32 = .ok (.lfsup 1 4 4#16) ∧
    decode Opcodes.p0 0x7C242CEE#32 = .ok (.lfdupx 1 4 5) ∧ decode Opcodes.p0 0x7C242C6E#32 = .ok (.lfsupx 1 4 5) ∧
    decode Opcodes.p0 0xDC240008#32 = .ok (.stfdup 1 4 8#16) ∧ decode Opcodes.p0 0xD4240004#32 = .ok (.stfsup 1 4 4#16) ∧
    decode Opcodes.p0 0x7C242DEE#32 = .ok (.stfdupx 1 4 5) ∧ decode Opcodes.p0 0x7C242D6E#32 = .ok (.stfsupx 1 4 5) := by decide

/-- `lbzup 3,8(4)` and `lbzupx 3,4,5` bit by bit: PO, RT, RA, then D, or RB, XO and the reserved bit (R52, R54). -/
theorem test_decode_bits :
    decode Opcodes.p0 0b10001100011001000000000000001000#32 = .ok (.lbzup 3 4 8#16) ∧
    decode Opcodes.p0 0b01111100011001000010100011101110#32 = .ok (.lbzupx 3 4 5) := by decide

/-- K2, K4, K5: signed immediates. -/
theorem test_decode_negative_immediates :
    decode Opcodes.p0 0x8C64FFFF#32 = .ok (.lbzup 3 4 0xFFFF#16) ∧ decode Opcodes.p0 0xE864FFF9#32 = .ok (.ldup 3 4 0x3FFE#14) ∧
    decode Opcodes.p0 0xE8648001#32 = .ok (.ldup 3 4 0x2000#14) ∧ incDS 0x3FFE#14 = -8#64 ∧ incDS 0x2000#14 = -32768#64 := by decide

/-- K11, K12, K16: invalid forms decode. -/
theorem test_decode_invalid_forms :
    decode Opcodes.p0 0x7FFFF8EE#32 = .ok (.lbzupx 31 31 31) ∧ decode Opcodes.p0 0x7C0000EE#32 = .ok (.lbzupx 0 0 0) ∧
    decode Opcodes.p0 0x9C600001#32 = .ok (.stbup 3 0 1#16) := by decide

/-- K6, K7, K9, K10, K13. -/
theorem test_decode_unrecognised :
    decode Opcodes.p0 0xE8640008#32 = .error (.unrecognised 0xE8640008#32) ∧ decode Opcodes.p0 0xE864000A#32 = .error (.unrecognised 0xE864000A#32) ∧
    decode Opcodes.p0 0xE864000B#32 = .error (.unrecognised 0xE864000B#32) ∧ decode Opcodes.p0 0x7C6428EF#32 = .error (.unrecognised 0x7C6428EF#32) ∧
    decode Opcodes.p0 0x7C6428AE#32 = .error (.unrecognised 0x7C6428AE#32) ∧ decode Opcodes.p0 0#32 = .error (.unrecognised 0#32) ∧
    decode Opcodes.p0 0xFFFFFFFF#32 = .error (.unrecognised 0xFFFFFFFF#32) := by decide

/-- "the 27 (mask, match) pairs are pairwise disjoint" (2.5): any two rows differ in a bit that both fix. -/
theorem test_rows_disjoint :
    (opcodeTable Opcodes.p0).Pairwise (fun r r' => r.pattern &&& (r.mask &&& r'.mask) ≠ r'.pattern &&& (r.mask &&& r'.mask)) := by decide

/-- "with a different OPCODES the words change and nothing else does" (95_test_vectors.md): `lbzup` and `lbzupx` exchange numbers
with `lwzup` and `lwzupx`. -/
def otherOps : Opcodes := { Opcodes.p0 with lbzup := 33#6, lwzup := 35#6, lbzupx := 55#10, lwzupx := 119#10 }

theorem test_other_allocation :
    otherOps.wf ∧ decode otherOps 0x84640008#32 = .ok (.lbzup 3 4 8#16) ∧ decode otherOps 0x7C64286E#32 = .ok (.lbzupx 3 4 5) ∧
    encode otherOps (.lwzupx 3 4 5) = some 0x7C6428EE#32 := by decide

/-- R59: table P0 as printed is the table of the allocation P0. -/
theorem test_table_p0 :
    (opcodeTable Opcodes.p0).map (fun r => (r.mnemonic, r.pattern, r.mask)) = tableP0 := by decide

/-- Allocations that R58 forbids: two immediate forms with one primary opcode; the shared primary opcode taken by one. -/
theorem test_opcodes_ill_formed :
    ¬({ Opcodes.p0 with lbzup := 33#6 } : Opcodes).wf ∧ ¬({ Opcodes.p0 with indexed := 62#6 } : Opcodes).wf ∧
    ¬({ Opcodes.p0 with ldupx := 55#10 } : Opcodes).wf ∧ Opcodes.p0.wf := by decide

theorem test_decode_bytes :
    decodeBytes Opcodes.p0 .be [0x8C#8, 0x64#8, 0x00#8, 0x08#8, 0x55#8] = .ok (.lbzup 3 4 8#16, [0x55#8]) ∧
    decodeBytes Opcodes.p0 .le [0x08#8, 0x00#8, 0x64#8, 0x8C#8] = .ok (.lbzup 3 4 8#16, []) ∧
    decodeBytes Opcodes.p0 .be [0x8C#8, 0x64#8] = .error (.truncated 2) := by decide

theorem test_decode_table_word :
    decodeTableWord 32 0x84000000 = some (.lwzup 0 0 0#16) ∧ decodeTableWord 32 0x7C0005EE = some (.stfdupx 0 0 0) ∧
    decodeTableWord 32 0 = none := by decide

/-- R67: `lbzup 3,8(4)` is 0x8C640008; `stdup 4,8(4)` is 0xF8840009. -/
theorem test_encode :
    encode Opcodes.p0 (.lbzup 3 4 8#16) = some 0x8C640008#32 ∧ encode Opcodes.p0 (.stdup 4 4 2#14) = some 0xF8840009#32 ∧
    encode Opcodes.p0 (.lhaup 3 4 0xFFFE#16) = some 0xAC64FFFE#32 ∧ encode Opcodes.p0 .lbzuspx = none := by decide

/-! ### Fixed-point loads, one step (2.1) -/

/-- L1 under another allocation. -/
theorem test_step_other_allocation :
    let o := step (one { launchBE with opcodes := otherOps } 0x84640008 [(4, 0x1000#64)] [] m0)
    gprOf o 3 = some 0x80#64 ∧ gprOf o 4 = some 0x1008#64 := by decide

/-- L1. -/
theorem test_lbzup_zero_extends :
    let o := step (one launchBE 0x8C640008 [(4, 0x1000#64)] [] m0)
    gprOf o 3 = some 0x80#64 ∧ gprOf o 4 = some 0x1008#64 := by decide

/-- L6. -/
theorem test_lbzup_wraps :
    let o := step (one launchBE 0x8C640001 [(4, 0xFFFFFFFFFFFFFFFF#64)] [] [(0xFFFFFFFFFFFFFFFF, 0x5A#8)])
    gprOf o 3 = some 0x5A#64 ∧ gprOf o 4 = some 0#64 := by decide

/-- L8. -/
theorem test_lbzupx_index_is_base :
    let o := step (one launchBE 0x7C6420EE [(4, 0x1001#64)] [] m0)
    gprOf o 3 = some 1#64 ∧ gprOf o 4 = some 0x2002#64 := by decide

/-- L9. -/
theorem test_lbzupx_index_is_target :
    let o := step (one launchBE 0x7C6418EE [(3, 0x10#64), (4, 0x1001#64)] [] m0)
    gprOf o 3 = some 1#64 ∧ gprOf o 4 = some 0x1011#64 := by decide

/-- L12. -/
theorem test_lhzup_byte_orders :
    gprOf (step (one launchBE 0xA4640002 [(4, 0x1002#64)] [] m0)) 3 = some 0xFFFE#64 ∧
    gprOf (step (one launchLE 0xA4640002 [(4, 0x1002#64)] [] m0)) 3 = some 0xFEFF#64 := by decide

/-- L31, L31s. -/
theorem test_lhzup_misaligned :
    stopOf (step (one launchBE 0xA4640002 [(4, 0x1001#64)] [] m0)) = some (.fault (.alignmentFault 0x1001#64)) ∧
    gprOf (step (one launchSplit 0xA4640002 [(4, 0x1001#64)] [] m0)) 3 = some 0x1FF#64 := by decide

/-- L13. -/
theorem test_lhzupx :
    let o := step (one launchBE 0x7C642A6E [(4, 0x1002#64), (5, 0x10#64)] [] m0)
    gprOf o 3 = some 0xFFFE#64 ∧ gprOf o 4 = some 0x1012#64 := by decide

/-- L14. -/
theorem test_lhaup_sign :
    gprOf (step (one launchBE 0xAC64FFFE [(4, 0x1000#64)] [] m0)) 3 = some 0xFFFFFFFFFFFF8001#64 ∧
    gprOf (step (one launchLE 0xAC64FFFE [(4, 0x1000#64)] [] m0)) 3 = some 0x180#64 := by decide

/-- L30. -/
theorem test_lhaup_target_zero :
    let o := step (one launchBE 0xAC040002 [(4, 0x1000#64)] [] m0)
    gprOf o 0 = some 0xFFFFFFFFFFFF8001#64 ∧ gprOf o 4 = some 0x1002#64 := by decide

/-- L16. -/
theorem test_lhaupx :
    gprOf (step (one launchBE 0x7C642AEE [(4, 0x1002#64), (5, 2#64)] [] m0)) 3 = some 0xFFFFFFFFFFFFFFFE#64 ∧
    gprOf (step (one launchLE 0x7C642AEE [(4, 0x1002#64), (5, 2#64)] [] m0)) 3 = some 0xFFFFFFFFFFFFFEFF#64 := by decide

/-- L18. -/
theorem test_lwzup :
    gprOf (step (one launchBE 0x84640004 [(4, 0x1008#64)] [] m0)) 3 = some 0x9ABCDEF0#64 ∧
    gprOf (step (one launchLE 0x84640004 [(4, 0x1008#64)] [] m0)) 3 = some 0xF0DEBC9A#64 := by decide

/-- L19. -/
theorem test_lwzupx :
    let o := step (one launchBE 0x7C64286E [(4, 0x1008#64), (5, 0x100#64)] [] m0)
    gprOf o 3 = some 0x9ABCDEF0#64 ∧ gprOf o 4 = some 0x1108#64 := by decide

/-- L20. -/
theorem test_lwaupx_negative :
    gprOf (step (one launchBE 0x7C642AEA [(4, 0x1008#64), (5, 4#64)] [] m0)) 3 = some 0xFFFFFFFF9ABCDEF0#64 ∧
    gprOf (step (one launchLE 0x7C642AEA [(4, 0x1008#64), (5, 4#64)] [] m0)) 3 = some 0xFFFFFFFFF0DEBC9A#64 := by decide

/-- L21. -/
theorem test_lwaupx_positive :
    gprOf (step (one launchBE 0x7C642AEA [(4, 0x1004#64), (5, 4#64)] [] m0)) 3 = some 0x7F001234#64 := by decide

/-- L23. -/
theorem test_ldup_negative_displacement :
    let o := step (one launchBE 0xE864FFF9 [(4, 0x1008#64)] [] m0)
    gprOf o 3 = some 0x9ABCDEF011223344#64 ∧ gprOf o 4 = some 0x1000#64 := by decide

/-- L25, little-endian. -/
theorem test_ldup_smallest_displacement :
    let o := step (one launchLE 0xE8648001 [(4, 0x1000#64)] [] m0)
    gprOf o 3 = some 0x3412007FFEFF0180#64 ∧ gprOf o 4 = some 0xFFFFFFFFFFFF9000#64 := by decide

/-- L26. -/
theorem test_ldupx_no_overflow :
    let o := step (one launchBE 0x7C64286A [(4, 0x1008#64), (5, 0x7FFFFFFFFFFFFFFF#64)] [] m0)
    gprOf o 3 = some 0x9ABCDEF011223344#64 ∧ gprOf o 4 = some 0x8000000000001007#64 := by decide

/-! ### Fixed-point stores, one step (2.2) -/

/-- S1. -/
theorem test_stbup :
    let o := step (one launchBE 0x9C640001 [(3, 0x1122334455667788#64), (4, 0x2000#64)] [] [])
    memOf o = some [(0x2000, 0x88#8)] ∧ gprOf o 4 = some 0x2001#64 := by decide

/-- S12. -/
theorem test_stbup_source_zero :
    memOf (step (one launchBE 0x9C040001 [(0, 0xAB#64), (4, 0x2000#64)] [] [])) = some [(0x2000, 0xAB#8)] := by decide

/-- S2. -/
theorem test_stbupx :
    let o := step (one launchBE 0x7C6429EE [(3, 0x1122334455667788#64), (4, 0x2000#64), (5, 0xFFFFFFFFFFFFFFFF#64)] [] [])
    memOf o = some [(0x2000, 0x88#8)] ∧ gprOf o 4 = some 0x1FFF#64 := by decide

/-- S3. -/
theorem test_sthup_byte_orders :
    memOf (step (one launchBE 0xB4640002 [(3, 0x1122334455667788#64), (4, 0x2000#64)] [] [])) =
      some [(0x2000, 0x77#8), (0x2001, 0x88#8)] ∧
    memOf (step (one launchLE 0xB4640002 [(3, 0x1122334455667788#64), (4, 0x2000#64)] [] [])) =
      some [(0x2000, 0x88#8), (0x2001, 0x77#8)] := by decide

/-- S15, S15s. -/
theorem test_sthup_misaligned :
    stopOf (step (one launchBE 0xB4640002 [(3, 0x1122334455667788#64), (4, 0x2001#64)] [] [])) =
      some (.fault (.alignmentFault 0x2001#64)) ∧
    memOf (step (one launchSplit 0xB4640002 [(3, 0x1122334455667788#64), (4, 0x2001#64)] [] [])) =
      some [(0x2001, 0x77#8), (0x2002, 0x88#8)] := by decide

/-- S4. -/
theorem test_sthupx :
    let o := step (one launchBE 0x7C642B6E [(3, 0x1122334455667788#64), (4, 0x2000#64), (5, 0x20#64)] [] [])
    memOf o = some [(0x2000, 0x77#8), (0x2001, 0x88#8)] ∧ gprOf o 4 = some 0x2020#64 := by decide

/-- S5. -/
theorem test_stwup_push :
    let o := step (one launchBE 0x9464FFFC [(3, 0x1122334455667788#64), (4, 0x2000#64)] [] [])
    memOf o = some [(0x2000, 0x55#8), (0x2001, 0x66#8), (0x2002, 0x77#8), (0x2003, 0x88#8)] ∧
    gprOf o 4 = some 0x1FFC#64 := by decide

/-- S10. -/
theorem test_stwupx_index_is_source :
    let o := step (one launchBE 0x7C64196E [(3, 0x10#64), (4, 0x2000#64)] [] [])
    memOf o = some [(0x2000, 0#8), (0x2001, 0#8), (0x2002, 0#8), (0x2003, 0x10#8)] ∧
    gprOf o 4 = some 0x2010#64 := by decide

/-- S9. -/
theorem test_stdup_stores_old_base :
    let o := step (one launchBE 0xF8840009 [(4, 0x2000#64)] [] [])
    memOf o = some [(0x2000, 0#8), (0x2001, 0#8), (0x2002, 0#8), (0x2003, 0#8), (0x2004, 0#8), (0x2005, 0#8),
      (0x2006, 0x20#8), (0x2007, 0#8)] ∧ gprOf o 4 = some 0x2008#64 := by decide

/-- S8. -/
theorem test_stdupx_wraps :
    let o := step (one launchLE 0x7C64296A [(3, 0x1122334455667788#64), (4, 0x2000#64), (5, 0xFFFFFFFFFFFFE000#64)] [] [])
    memOf o = some [(0x2000, 0x88#8), (0x2001, 0x77#8), (0x2002, 0x66#8), (0x2003, 0x55#8), (0x2004, 0x44#8),
      (0x2005, 0x33#8), (0x2006, 0x22#8), (0x2007, 0x11#8)] ∧ gprOf o 4 = some 0#64 := by decide

/-! ### Floating-point loads and stores, one step (2.3) -/

/-- The bytes of an image from 0x1000 on. -/
def at1000 : Nat → List Byte → Memory
  | _, [] => []
  | k, b :: bs => (0x1000 + k, b) :: at1000 (k + 1) bs

/-- F1. -/
theorem test_lfdup :
    let o := step (one launchBE 0xCC240008 [(4, 0x1000#64)] [] (at1000 0 [0x3F#8, 0xF8#8, 0#8, 0#8, 0#8, 0#8, 0#8, 0#8]))
    fprOf o 1 = some 0x3FF8000000000000#64 ∧ gprOf o 4 = some 0x1008#64 := by decide

/-- F15. -/
theorem test_lfdup_target_number_of_base :
    let o := step (one launchLE 0xCC840008 [(4, 0x1000#64)] [] (at1000 0 [0x3F#8, 0xF8#8, 0#8, 0#8, 0#8, 0#8, 0#8, 0#8]))
    fprOf o 4 = some 0xF83F#64 ∧ gprOf o 4 = some 0x1008#64 := by decide

/-- F2, F3. -/
theorem test_lfsup :
    fprOf (step (one launchLE 0xC4240004 [(4, 0x1000#64)] [] (at1000 0 [0x3F#8, 0xC0#8, 0#8, 0#8]))) 1 =
      some 0x379807E000000000#64 ∧
    fprOf (step (one launchBE 0xC4240004 [(4, 0x1000#64)] [] (at1000 0 [0#8, 0#8, 0#8, 1#8]))) 1 =
      some 0x36A0000000000000#64 := by decide

/-- F4. -/
theorem test_lfsup_signalling_nan :
    fprOf (step (one launchBE 0xC4240004 [(4, 0x1000#64)] [] (at1000 0 [0x7F#8, 0x80#8, 0#8, 1#8]))) 1 =
      some 0x7FF0000020000000#64 := by decide

/-- F5. -/
theorem test_lfdupx :
    let o := step (one launchLE 0x7C242CEE [(4, 0x1000#64), (5, 0x10#64)] []
      (at1000 0 [0xC0#8, 0x5E#8, 0xDD#8, 0x2F#8, 0x20#8, 0#8, 0#8, 0#8]))
    fprOf o 1 = some 0x000000202FDD5EC0#64 ∧ gprOf o 4 = some 0x1010#64 := by decide

/-- F6. -/
theorem test_lfsupx :
    let o := step (one launchBE 0x7C242C6E [(4, 0x1000#64), (5, 0x10#64)] [] (at1000 0 [0xC2#8, 0xF6#8, 0xE9#8, 0x79#8]))
    fprOf o 1 = some 0xC05EDD2F20000000#64 ∧ gprOf o 4 = some 0x1010#64 := by decide

/-- F7. -/
theorem test_stfdup :
    let o := step (one launchBE 0xDC240008 [(4, 0x1000#64)] [(1, 0x400921FB54442D18#64)] [])
    memOf o = some (at1000 0 [0x40#8, 0x09#8, 0x21#8, 0xFB#8, 0x54#8, 0x44#8, 0x2D#8, 0x18#8]) ∧
    gprOf o 4 = some 0x1008#64 := by decide

/-- F8. -/
theorem test_stfsup_truncates :
    let o := step (one launchLE 0xD4240004 [(4, 0x1000#64)] [(1, 0x400921FB54442D18#64)] [])
    memOf o = some (at1000 0 [0xDA#8, 0x0F#8, 0x49#8, 0x40#8]) ∧ gprOf o 4 = some 0x1004#64 := by decide

/-- F12: the undefined band completes, and RA is updated. -/
theorem test_stfsup_undefined_band :
    gprOf (step (one launchBE 0xD4240004 [(4, 0x1000#64)] [(1, 0x3690000000000000#64)] [])) 4 = some 0x1004#64 := by decide

/-- F9. -/
theorem test_stfdupx :
    let o := step (one launchLE 0x7C242DEE [(4, 0x1000#64), (5, 0x10#64)] [(1, 0x3FF8000000000000#64)] [])
    memOf o = some (at1000 0 [0#8, 0#8, 0#8, 0#8, 0#8, 0#8, 0xF8#8, 0x3F#8]) ∧ gprOf o 4 = some 0x1010#64 := by decide

/-- F10. -/
theorem test_stfsupx :
    let o := step (one launchBE 0x7C242D6E [(4, 0x1000#64), (5, 0x10#64)] [(1, 0x3FF8000000000000#64)] [])
    memOf o = some (at1000 0 [0x3F#8, 0xC0#8, 0#8, 0#8]) ∧ gprOf o 4 = some 0x1010#64 := by decide

/-- The values R101 lists. -/
theorem test_fpSingleToDouble_values :
    fpSingleToDouble 0x3FC00000#32 = 0x3FF8000000000000#64 ∧ fpSingleToDouble 0x00000001#32 = 0x36A0000000000000#64 ∧
    fpSingleToDouble 0x00400000#32 = 0x3800000000000000#64 ∧ fpSingleToDouble 0x00800000#32 = 0x3810000000000000#64 ∧
    fpSingleToDouble 0x80000000#32 = 0x8000000000000000#64 ∧ fpSingleToDouble 0x7F800000#32 = 0x7FF0000000000000#64 ∧
    fpSingleToDouble 0x7FC00000#32 = 0x7FF8000000000000#64 ∧ fpSingleToDouble 0x7F800001#32 = 0x7FF0000020000000#64 ∧
    fpSingleToDouble 0xC2F6E979#32 = 0xC05EDD2F20000000#64 := by decide

/-- The values R102 lists. -/
theorem test_fpDoubleToSingle_values :
    fpDoubleToSingle 0x3FF8000000000000#64 = some 0x3FC00000#32 ∧ fpDoubleToSingle 0x36A0000000000000#64 = some 0x00000001#32 ∧
    fpDoubleToSingle 0x3800000000000000#64 = some 0x00400000#32 ∧ fpDoubleToSingle 0x3810000000000000#64 = some 0x00800000#32 ∧
    fpDoubleToSingle 0x3FF0000000000001#64 = some 0x3F800000#32 ∧ fpDoubleToSingle 0x400921FB54442D18#64 = some 0x40490FDA#32 ∧
    fpDoubleToSingle 0x7FF8000000000001#64 = some 0x7FC00000#32 ∧ fpDoubleToSingle 0x47F0000000000000#64 = some 0x7F800000#32 ∧
    fpDoubleToSingle 0x3690000000000000#64 = none := by decide

/-! ### Stops (2.1, 2.2, 2.3) and the fault record -/

/-- A map of the 16 bytes of M0 (L34, L35). -/
def launchSmall : Launch := { Launch.default with misaligned := .split, memoryMap := [⟨0x1000, 16⟩] }

/-- L27, L28, S13, F13. -/
theorem test_invalid_forms :
    stopOf (step (one launchBE 0x8C600008 [(0, 0x1000#64)] [] m0)) = some (.fault (.invalidForm 0x8C600008#32)) ∧
    stopOf (step (one launchBE 0x8C840008 [(4, 0x1000#64)] [] m0)) = some (.fault (.invalidForm 0x8C840008#32)) ∧
    stopOf (step (one launchBE 0x9C600001 [(0, 0x2000#64)] [] [])) = some (.fault (.invalidForm 0x9C600001#32)) ∧
    stopOf (step (one launchBE 0xC4200004 [] [] [])) = some (.fault (.invalidForm 0xC4200004#32)) := by decide

/-- L34, L35, L38. -/
theorem test_storage_and_unwritten :
    stopOf (step (one launchSmall 0x84640004 [(4, 0x100E#64)] [] m0)) = some (.fault (.storageFault 0x100E#64)) ∧
    stopOf (step (one launchSmall 0x8C640001 [(4, 0xFFF#64)] [] m0)) = some (.fault (.storageFault 0xFFF#64)) ∧
    stopOf (step (one launchBE 0x8C640001 [(4, 0x1010#64)] [] m0)) = some (.fault (.unwritten 0x1010#64)) := by decide

/-- The bytes of `lwzup 3,4(4)` (0x84640004) at 0x100, BE. -/
def textImage : Memory := [(0x100, 0x84#8), (0x101, 0x64#8), (0x102, 0x00#8), (0x103, 0x04#8)]

/-- R45: a load from the text region, by a program that loads its own first word: with the text's bytes named, in each order; with
one byte different; with none named; with the region outside MEMORY_MAP. -/
theorem test_load_from_text :
    gprOf (step (one launchBE 0x84640004 [(4, 0x100#64)] [] textImage)) 3 = some 0x84640004#64 ∧
    gprOf (step (one launchLE 0x84640004 [(4, 0x100#64)] [] [(0x100, 4#8), (0x101, 0#8), (0x102, 0x64#8), (0x103, 0x84#8)])) 3 =
      some 0x84640004#64 ∧
    stopOf (step (one launchLE 0x84640004 [(4, 0x100#64)] [] textImage)) = some (.fault (.unwritten 0x100#64)) ∧
    stopOf (step (one launchBE 0x84640004 [(4, 0x100#64)] [] (Memory.write textImage 0x102 1#8))) =
      some (.fault (.unwritten 0x102#64)) ∧
    stopOf (step (one launchBE 0x84640004 [(4, 0x100#64)] [] [])) = some (.fault (.unwritten 0x100#64)) ∧
    stopOf (step (one launchSmall 0x84640004 [(4, 0x100#64)] [] [])) = some (.fault (.storageFault 0x100#64)) := by decide

/-- R45, F0, K13. -/
theorem test_refusals :
    stopOf (step (one launchBE 0x9C640001 [(4, 0x103#64)] [] [])) = some (.refusal .storeToText) ∧
    stopOf (step (one { launchBE with admitFp := false } 0xCC240008 [] [] [])) = some (.refusal (.fpNotAdmitted "lfdup")) ∧
    stopOf (step (one launchBE 0xFFFFFFFF [] [] [])) = some (.refusal (.unrecognised 0xFFFFFFFF#32)) := by decide

/-- X1, X2, X3. -/
theorem test_shifted_refused :
    stopOf (exec .lbzuspx State.reset) = some (.refusal (.noSemantics "lbzuspx")) ∧
    stopOf (exec .stduspx State.reset) = some (.refusal (.noSemantics "stduspx")) ∧
    stopOf (exec .lfdupsx State.reset) = some (.refusal (.noSemantics "lfdupsx")) := by decide

/-- P4, its third instruction: the raise is recorded with its pc, and nothing else changes. -/
theorem test_raise_recorded :
    let s := one launchBE 0x84630004 [(3, 0x1004#64)] [] m0
    transition s = { s with faultRecord := [⟨.fault (.invalidForm 0x84630004#32), 0x100#64⟩] } := by decide

/-- withFetchWord at reset runs the row's word as the first instruction: here an invalid form (R59's match value). -/
theorem test_first_instruction :
    stopOf (step State.reset) = some (.fault .runEnded) ∧
    stopOf (step (State.reset.withFetchWord 32 0x84000000)) = some (.fault (.invalidForm 0x84000000#32)) := by decide

/-! ### Witnesses: a concrete input that meets the hypotheses of each statement that has any -/

/-- `lbzup 3,8(4)` and then `stwup 3,4(4)` over M0. -/
def demo : State :=
  State.launched { launchBE with text := [0x8C640008#32, 0x94640004#32] } (regs [(4, 0x1000#64)]) (regs []) m0

/-- The same, one step later. -/
def demoLater : State := { demo with pc := 0x104#64, gpr := regs [(3, 0x80#64), (4, 0x1008#64)] }

/-- The same, at the end of the text. -/
def demoFinal : State := { demo with pc := 0x108#64 }

/-- A program whose instruction is an invalid form. -/
def demoInvalid : State := { demo with launch := { launchBE with text := [0x84630004#32] } }

/-- A program whose word is unrecognised. -/
def demoUnrecognised : State := { demo with launch := { launchBE with text := [0x7C6428EF#32] } }

/-- A state with a recorded fault. -/
def demoFaulted : State := { demo with faultRecord := [⟨.fault (.unwritten 0#64), 0x100#64⟩] }

/-- Memory M0 from 0x2000 is absent: only the bytes 0x1000 to 0x100F exist. -/
def demoSmall : State := { demo with launch := { launchSmall with text := [0x8C640008#32] } }

/-- M0 read with the last bytes of the address space written, for accesses that wrap. -/
def demoTop : State :=
  { demo with launch := launchSplit, mem := [(0, 1#8), (1, 2#8), (0xFFFFFFFFFFFFFFFE, 3#8), (0xFFFFFFFFFFFFFFFF, 4#8)] }

theorem demo_inv : demo.Inv where
  opcodesWf := by decide
  placed := by decide
  memWf := by decide
  memMapped := by decide
  memText := by decide
  pcInText := ⟨0, by decide, by decide⟩
  oneRaise := by decide

theorem demo_launch : demo.IsLaunch where
  params := by decide
  atBase := by decide
  memWf := by decide
  memNamed := by decide
  memText := by decide
  noFault := by decide

/-- R160 (b): the text of a launch has at least one word, so State.reset, with no program loaded, is none (log 6). -/
theorem test_reset_is_no_launch : ¬State.reset.launch.wf ∧ State.reset.launch.opcodes.wf ∧ State.reset.launch.placed := by
  decide

theorem demoInvalid_inv : demoInvalid.Inv where
  opcodesWf := by decide
  placed := by decide
  memWf := by decide
  memMapped := by decide
  memText := by decide
  pcInText := ⟨0, by decide, by decide⟩
  oneRaise := by decide

theorem witness_DecodeOfEncode : otherOps.wf ∧ Opcodes.p0.wf ∧ (Instr.lbzup 0 31 0x8000#16).encodable = true ∧ (Instr.stfdupx 31 0 31).encodable = true := by
  decide

theorem witness_EncodeOfDecode : decode Opcodes.p0 0xE864FFF9#32 = .ok (.ldup 3 4 0x3FFE#14) := by decide

theorem witness_FieldLayouts : otherOps.wf := by decide

/-- Both sides of the equivalence, true and false. -/
theorem witness_WordDecodesAsItsTableRow :
    ("lbzup", 0x8C000000#32, 0xFC000000#32) ∈ tableP0 ∧ 0x8C640008#32 &&& 0xFC000000#32 = 0x8C000000#32 ∧
    decode Opcodes.p0 0x8C640008#32 = .ok (.lbzup 3 4 8#16) ∧ ("stfdupx", 0x7C0005EE#32, 0xFC0007FF#32) ∈ tableP0 ∧
    0x7C0005EF#32 &&& 0xFC0007FF#32 ≠ 0x7C0005EE#32 := by decide

theorem witness_UnlistedWord :
    (∀ row ∈ tableP0, 0x7C6428EF#32 &&& row.2.2 ≠ row.2.1) ∧
    (otherOps.wf ∧ (0x7C6428EF#32).extractLsb' 26 6 = otherOps.indexed ∧ (0x7C6428EF#32).getLsbD 0 = true) ∧
    (demoUnrecognised.faultRecord = [] ∧ demoUnrecognised.isFinal = false ∧
      demoUnrecognised.fetch = some 0x7C6428EF#32 ∧ decode Opcodes.p0 0x7C6428EF#32 = .error (.unrecognised 0x7C6428EF#32)) := by decide

theorem witness_ImageBytes : decode Opcodes.p0 0x8C640008#32 = .ok (.lbzup 3 4 8#16) := by decide

/-- The first and the last word of the text. -/
theorem witness_StepRunsTheDecodedInstruction :
    (demo.faultRecord = [] ∧ demo.isFinal = false ∧ demo.pc = demo.launch.textBase + BitVec.ofNat 64 (4 * 0) ∧
      demo.launch.text[0]? = some 0x8C640008#32 ∧ decode Opcodes.p0 0x8C640008#32 = .ok (.lbzup 3 4 8#16)) ∧
    (demoLater.faultRecord = [] ∧ demoLater.isFinal = false ∧
      demoLater.pc = demoLater.launch.textBase + BitVec.ofNat 64 (4 * 1) ∧
      demoLater.launch.text[1]? = some 0x94640004#32 ∧ decode Opcodes.p0 0x94640004#32 = .ok (.stwup 3 4 4#16)) := by decide

theorem witness_NoStep :
    (demoFinal.pc = demoFinal.launch.textBase + BitVec.ofNat 64 (4 * demoFinal.launch.text.length) ∧
      demoFinal.faultRecord = []) ∧ demoFaulted.faultRecord ≠ [] := by decide

theorem witness_RaiseRecords :
    (Stop.fault (.invalidForm 0x84630004#32)).recorded = true ∧
    step demoInvalid = raise (.fault (.invalidForm 0x84630004#32)) ∧
    (Stop.refusal (.unrecognised 0x7C6428EF#32)).recorded = true ∧
    step demoUnrecognised = raise (.refusal (.unrecognised 0x7C6428EF#32)) :=
  ⟨by decide, rfl, by decide, rfl⟩

/-- For the statements about a step that completes: a load, and a store. -/
theorem witness_completed_step : (∃ t, step demo = .next t) ∧ ∃ t, step demoLater = .next t :=
  ⟨next_of_completes (by decide), next_of_completes (by decide)⟩

/-- The last byte of the program text, and the first after it. -/
theorem witness_TextNeverChanges : demo.launch.inText 0x107 = true ∧ demo.launch.inText 0x108 = false := by decide

theorem witness_LaunchMeetsTheInvariant :
    (demo.launch.wf ∧ Memory.wf m0 ∧ (∀ c ∈ m0, demo.launch.admits c.1 = true) ∧
      agreesWithText demo.launch m0) ∧ demo.IsLaunch :=
  ⟨by decide, demo_launch⟩

theorem witness_StepKeepsTheInvariant : demo.Inv ∧ ∃ t, step demo = .next t :=
  ⟨demo_inv, next_of_completes (by decide)⟩

/-- A state whose transition completes, and one whose transition raises; both for EveryRunEnds too. -/
theorem witness_TransitionKeepsTheInvariant :
    demo.Inv ∧ completes (step demo) = true ∧ demoInvalid.Inv ∧ completes (step demoInvalid) = false :=
  ⟨demo_inv, by decide, demoInvalid_inv, by decide⟩

theorem witness_PcIsAlignedAndInText : demo.Inv ∧ demo.faultRecord = [] ∧ demo.isFinal = false :=
  ⟨demo_inv, by decide⟩

/-- Each clause of MemReadOutcomes; the last one with an access that wraps past the top of the address space. -/
theorem witness_MemReadOutcomes :
    (IsWidth 2 ∧ demo.launch.misaligned = .fault ∧ (0x1001#64).toNat % 2 ≠ 0) ∧
    (IsWidth 4 ∧ (demoSmall.launch.misaligned = .fault → (0x100E#64).toNat % 4 = 0) ∧
      ∃ k < 4, demoSmall.launch.admits (byteAddr 0x100E#64 k) = false) ∧
    (IsWidth 1 ∧ Accessible demo 0x1010#64 1 ∧ demo.byte? (byteAddr 0x1010#64 0) = none) ∧
    (IsWidth 4 ∧ Readable demoTop 0xFFFFFFFFFFFFFFFE#64 4) := by decide

/-- The third clause of MemReadOutcomes where the first byte is written and the second is not. -/
theorem witness_MemReadOutcomes_second_byte :
    Accessible { demo with launch := launchSplit } 0x100F#64 2 ∧
    (∀ j < 1, (demo.byte? (byteAddr 0x100F#64 j)).isSome = true) ∧
    demo.byte? (byteAddr 0x100F#64 1) = none := by decide

theorem witness_MemReadAssembles : IsWidth 2 ∧ memRead demo 0x1000#64 2 = .ok 0x8001#16 := by decide

/-- Each clause of MemWriteOutcomes. -/
theorem witness_MemWriteOutcomes :
    (IsWidth 8 ∧ demo.launch.misaligned = .fault ∧ (0x2004#64).toNat % 8 ≠ 0) ∧
    (IsWidth 4 ∧ (demoSmall.launch.misaligned = .fault → (0x100E#64).toNat % 4 = 0) ∧
      ∃ k < 4, demoSmall.launch.admits (byteAddr 0x100E#64 k) = false) ∧
    (IsWidth 4 ∧ Accessible demo 0x104#64 4 ∧ ∃ k < 4, demo.launch.inText (byteAddr 0x104#64 k) = true) ∧
    (IsWidth 4 ∧ Writable demo 0x108#64 4) := by decide

theorem witness_MemWriteStores : IsWidth 2 ∧ ∃ t, memWrite demo 0x2000#64 2 0x7788#16 = .ok t := ⟨by decide, _, rfl⟩

/-- The premises of all three clauses, and each clause: the text's bytes named, and the first of them absent. -/
theorem witness_LoadFromTextReadsTheText :
    let s := one launchBE 0x84640004 [] [] textImage
    let a := s.launch.textBase + BitVec.ofNat 64 (4 * 0)
    s.launch.placed ∧ s.launch.text[0]? = some 0x84640004#32 ∧ memRead s a 4 = .ok 0x84640004#32 ∧ Accessible s a 4 ∧
    (∀ j < 4, Memory.read? s.mem (byteAddr a j) =
      some ((0x84640004#32).extractLsb' (if s.launch.byteOrder = .be then 8 * (3 - j) else 8 * j) 8)) ∧
    Accessible demo 0x104#64 4 ∧ demo.launch.text[1]? = some 0x94640004#32 ∧
    ∃ j < 4, Memory.read? demo.mem (byteAddr 0x104#64 j) ≠
      some ((0x94640004#32).extractLsb' (if demo.launch.byteOrder = .be then 8 * (3 - j) else 8 * j) 8) := by decide

theorem witness_InvalidForm :
    ((Instr.lbzup 3 0 8#16).encodable = true ∧ (Instr.lbzup 3 0 8#16).formOk = false) ∧
    ((Instr.ldupx 4 4 5).encodable = true ∧ (Instr.ldupx 4 4 5).formOk = false) ∧
    ((Instr.stfdup 1 0 8#16).encodable = true ∧ (Instr.stfdup 1 0 8#16).isFp = true ∧ demo.launch.admitFp = true ∧
      (Instr.stfdup 1 0 8#16).formOk = false) ∧
    ((Instr.stdup 4 4 2#14).encodable = true ∧ (Instr.stdup 4 4 2#14).formOk = true) := by decide

theorem witness_FpRefused :
    (Instr.lfdup 1 4 8#16).isFp = true ∧ (one { launchBE with admitFp := false } 0 [] [] []).launch.admitFp = false := by decide

/-- An instruction whose base holds an odd address. -/
def demoOdd : State := { demo with gpr := regs [(4, 0x1001#64)] }

theorem witness_Misaligned :
    (Instr.lhzup 3 4 2#16).formOk = true ∧ (Instr.lhzup 3 4 2#16).loadAccess = some (4, 2) ∧
    (Instr.stfsupx 3 4 5).formOk = true ∧ (Instr.stfsupx 3 4 5).storeAccess = some (4, 4) ∧ demoOdd.launch.admitFp = true ∧
    demoOdd.launch.misaligned = .fault ∧ (demoOdd.gpr.get 4).toNat % 2 ≠ 0 ∧ (demoOdd.gpr.get 4).toNat % 4 ≠ 0 := by decide

/-- A map without the first address past M0. -/
def demoPast : State := { demoSmall with gpr := regs [(4, 0x1010#64)] }

theorem witness_Unmapped :
    (Instr.stbup 3 4 1#16).formOk = true ∧ (Instr.stbup 3 4 1#16).storeAccess = some (4, 1) ∧
    (demoPast.launch.misaligned = .fault → (demoPast.gpr.get 4).toNat % 1 = 0) ∧
    ∃ k < 1, demoPast.launch.admits (byteAddr (demoPast.gpr.get 4) k) = false := by decide

/-- The last two bytes of M0, and two that nothing has written. -/
def demoEnd : State := { demo with launch := launchSplit, gpr := regs [(4, 0x100E#64)] }

theorem witness_UnwrittenByte :
    (Instr.lwzup 3 4 4#16).formOk = true ∧ (Instr.lwzup 3 4 4#16).loadAccess = some (4, 4) ∧
    Accessible demoEnd (demoEnd.gpr.get 4) 4 ∧
    (∀ j < 2, (demoEnd.byte? (byteAddr (demoEnd.gpr.get 4) j)).isSome = true) ∧
    demoEnd.byte? (byteAddr (demoEnd.gpr.get 4) 2) = none := by decide

/-- The last word of the text. -/
def demoText : State := { demo with gpr := regs [(4, 0x104#64)] }

theorem witness_StoreToText :
    (Instr.stwup 3 4 4#16).formOk = true ∧ (Instr.stwup 3 4 4#16).storeAccess = some (4, 4) ∧
    Accessible demoText (demoText.gpr.get 4) 4 ∧
    ∃ k < 4, demoText.launch.inText (byteAddr (demoText.gpr.get 4) k) = true := by decide

/-- For the statements of the fixed-point loads: the invalid forms, and a readable access of each width. -/
theorem witness_loads :
    ((0 : Reg) = 0 ∨ (0 : Reg) = 3) ∧ ((4 : Reg) = 0 ∨ (4 : Reg) = 4) ∧ ((4 : Reg) ≠ 0 ∧ (4 : Reg) ≠ 3) ∧
    Readable demo (demo.gpr.get 4) 1 ∧ Readable demo (demo.gpr.get 4) 2 ∧ Readable demo (demo.gpr.get 4) 4 ∧
    Readable demo (demo.gpr.get 4) 8 := by decide

/-- A base with nothing written at it, past the text. -/
def demoStore : State := { demo with gpr := regs [(3, 0x1122334455667788#64), (4, 0x2000#64)] }

/-- For the statements of the fixed-point stores: a writable access of each width. -/
theorem witness_stores :
    (4 : Reg) ≠ 0 ∧ Writable demoStore (demoStore.gpr.get 4) 1 ∧ Writable demoStore (demoStore.gpr.get 4) 2 ∧
    Writable demoStore (demoStore.gpr.get 4) 4 ∧ Writable demoStore (demoStore.gpr.get 4) 8 := by decide

/-- For the statements of the floating-point loads and stores. -/
theorem witness_fp :
    (4 : Reg) ≠ 0 ∧ demo.launch.admitFp = true ∧ Readable demo (demo.gpr.get 4) 8 ∧ Readable demo (demo.gpr.get 4) 4 ∧
    demoStore.launch.admitFp = true ∧ Writable demoStore (demoStore.gpr.get 4) 8 ∧
    Writable demoStore (demoStore.gpr.get 4) 4 ∧ demo.launch.fpConversions = .recommended ∧
    doubleToSingle demoStore.launch (demoStore.fpr.get 1) = some 0#32 ∧ demoStore.launch.fpConversions = .recommended ∧
    fpDoubleToSingle (demoStore.fpr.get 1) = some 0#32 := by decide

/-- The largest double of the undefined band: the exponent field is 873. -/
def demoBand : State := { demoStore with fpr := regs [(1, 0x369FFFFFFFFFFFFF#64)] }

theorem witness_StoreFpSingleUndefinedBand :
    demoBand.launch.admitFp = true ∧ (4 : Reg) ≠ 0 ∧ Writable demoBand (demoBand.gpr.get 4) 4 ∧
    doubleToSingle demoBand.launch (demoBand.fpr.get 1) = none ∧ demoBand.launch.fpConversions = .recommended ∧
    ((demoBand.fpr.get 1).extractLsb' 52 11).toNat < 874 ∧ ((demoBand.fpr.get 1).extractLsb' 52 11).toNat = 873 ∧
    (demoBand.fpr.get 1).extractLsb' 0 63 ≠ 0#63 := by decide

/-- The bounds of each case of R101. -/
theorem witness_SingleToDoubleCases :
    (1#8 ≠ 0#8 ∧ 1#8 ≠ 255#8) ∧ (254#8 ≠ 0#8 ∧ 254#8 ≠ 255#8) ∧
    (2 ^ 0 ≤ (1#23).toNat ∧ (1#23).toNat < 2 ^ (0 + 1)) ∧
    (2 ^ 22 ≤ (0x7FFFFF#23).toNat ∧ (0x7FFFFF#23).toNat < 2 ^ (22 + 1)) := by decide

/-- The bounds of each case of R102. -/
theorem witness_DoubleToSingleCases :
    896 < (897#11).toNat ∧ (874 ≤ (874#11).toNat ∧ (874#11).toNat ≤ 896) ∧ (874 ≤ (896#11).toNat ∧ (896#11).toNat ≤ 896) ∧
    ((873#11).toNat < 874 ∧ 873#11 ≠ 0#11) ∧ ((0#11).toNat < 874 ∧ 1#52 ≠ 0#52) := by decide

theorem witness_FixedLoadFrame :
    (Instr.lbzup 3 4 8#16).gprTarget = some 3 ∧ (Instr.lbzup 3 4 8#16).loadAccess = some (4, 1) ∧
    ∃ t, exec (.lbzup 3 4 8#16) demo = .next t :=
  ⟨by decide, by decide, next_of_completes (by decide)⟩

theorem witness_FpLoadFrame :
    (Instr.lfsup 3 4 8#16).fprTarget = some 3 ∧ (Instr.lfsup 3 4 8#16).loadAccess = some (4, 4) ∧
    ∃ t, exec (.lfsup 3 4 8#16) demo = .next t :=
  ⟨by decide, by decide, next_of_completes (by decide)⟩

theorem witness_StoreFrame :
    (Instr.stdup 4 4 2#14).storeAccess = some (4, 8) ∧ (Instr.stdup 4 4 2#14).fprSource = none ∧
    ∃ t, exec (.stdup 4 4 2#14) demoStore = .next t :=
  ⟨by decide, by decide, next_of_completes (by decide)⟩

/-- A load for the clause about memory, a store for the one about the floating-point registers, both with GPR[0] no target. -/
theorem witness_current :
    demo.current = .ok (.lbzup 3 4 8#16) ∧ (Instr.lbzup 3 4 8#16).storeAccess = none ∧
    demoLater.current = .ok (.stwup 3 4 4#16) ∧ (Instr.stwup 3 4 4#16).fprTarget = none ∧
    (Instr.lbzup 3 4 8#16).gprTarget ≠ some 0 ∧ (∃ t, step demo = .next t) ∧ ∃ t, step demoLater = .next t :=
  ⟨by decide, by decide, by decide, by decide, by decide, witness_completed_step⟩

theorem witness_OnlyFpStoresReadFpr :
    (Instr.lfdup 1 4 8#16).fprSource = none ∧ (Instr.lfdup 1 4 8#16).fprTarget = some 1 ∧
    ∃ t, exec (.lfdup 1 4 8#16) demo = .next t :=
  ⟨by decide, by decide, next_of_completes (by decide)⟩

theorem witness_AccessIndependentOfDisplacement :
    Instr.lwzup ∈ [Instr.lbzup, .lhzup, .lhaup, .lwzup, .stbup, .sthup, .stwup, .lfdup, .lfsup, .stfdup, .stfsup] ∧
    (∃ t, exec (.lwzup 3 4 0x7FFF#16) demo = .next t) ∧ ∃ u, exec (.lwzup 3 4 0x8000#16) demo = .next u :=
  ⟨by simp, next_of_completes (by decide), next_of_completes (by decide)⟩

/-- A next state, a fault and a refusal. -/
theorem witness_OpcodeNumbersDoNotMatter :
    (∃ t, exec (.lbzup 3 4 8#16) demo = .next t) ∧ stopOf (exec (.lbzup 3 0 8#16) demo) = some (.fault (.invalidForm 0x8C600008#32)) ∧
    stopOf (exec (.lhzup 3 4 8#16) demoOdd) = some (.fault (.alignmentFault 0x1001#64)) ∧
    stopOf (exec .lbzuspx demo) = some (.refusal (.noSemantics "lbzuspx")) :=
  ⟨next_of_completes (by decide), by decide⟩

end Sys2Proof.Tests
end

section
/-! The family of spec/10_state.md: what a step that completes does to each field of State, and what it leaves unchanged. -/

namespace Sys2Proof.Machine

/-! ### The tests of an access, byte by byte (R32, R33) -/

theorem mapped_iff {s : State} {a : Addr} {n : Nat} :
    s.mapped a n = true ↔ ∀ k < n, s.launch.admits (byteAddr a k) = true := by
  simp [State.mapped]

theorem touchesText_eq_false_iff {s : State} {a : Addr} {n : Nat} :
    s.touchesText a n = false ↔ ∀ k < n, s.launch.inText (byteAddr a k) = false := by
  simp [State.touchesText]

/-- An access that passes the three tests of R33 is written. -/
theorem memWrite_of_tests {s : State} {a : Addr} {n : Nat} {v : BitVec (8 * n)} (halign : s.misalignedFaults a n = false)
    (hmap : s.mapped a n = true) (htext : s.touchesText a n = false) :
    memWrite s a n v = .ok { s with mem := writeBytes s.launch.byteOrder a n v 0 n s.mem } := by
  simp [memWrite, halign, hmap, htext]

/-! ### pc, the launch parameters, the fault record -/

section Completed

variable {i : Instr} {s t : State}

/-- Every instruction ends by adding 4 to pc (R23 (b)), and none names the launch parameters or the fault record. -/
theorem Completes.bookkeeping (h : Completes i s t) :
    t.pc = s.pc + 4#64 ∧ t.launch = s.launch ∧ t.faultRecord = s.faultRecord := by
  cases h with
  | fixedLoad _ _ _ _ _ _ _ _ _ result => subst result; exact ⟨rfl, rfl, rfl⟩
  | fpLoad _ _ _ _ _ _ _ _ _ result => subst result; exact ⟨rfl, rfl, rfl⟩
  | store _ _ _ _ _ _ _ _ _ _ _ wrote result =>
    obtain ⟨-, -, -, rfl⟩ := memWrite_ok wrote
    subst result; exact ⟨rfl, rfl, rfl⟩

theorem Completes.pc_eq (h : Completes i s t) : t.pc = s.pc + 4#64 := h.bookkeeping.1

theorem Completes.launch_eq (h : Completes i s t) : t.launch = s.launch := h.bookkeeping.2.1

theorem Completes.faultRecord_eq (h : Completes i s t) : t.faultRecord = s.faultRecord := h.bookkeeping.2.2

/-! ### Memory -/

/-- Memory is as before, or one access wrote it that passed the tests of R33 against the map and the program text. -/
theorem Completes.mem_cases (h : Completes i s t) :
    t.mem = s.mem ∨ ∃ (a : Addr) (n : Nat) (v : BitVec (8 * n)), s.mapped a n = true ∧ s.touchesText a n = false ∧
      t.mem = writeBytes s.launch.byteOrder a n v 0 n s.mem := by
  cases h with
  | fixedLoad _ _ _ _ _ _ _ _ _ result => subst result; exact .inl rfl
  | fpLoad _ _ _ _ _ _ _ _ _ result => subst result; exact .inl rfl
  | store v _ _ _ _ _ _ _ _ _ _ wrote result =>
    obtain ⟨-, hmap, htext, rfl⟩ := memWrite_ok wrote
    subst result; exact .inr ⟨_, _, v, hmap, htext, rfl⟩

theorem Completes.mem_wf (h : Completes i s t) (hm : Memory.wf s.mem) : Memory.wf t.mem := by
  obtain heq | ⟨a, n, v, -, -, heq⟩ := h.mem_cases
  · rwa [heq]
  · rw [heq]; exact writeBytes_wf _ _ _ _ _ _ _ hm

/-- A byte of memory after the instruction was there before, or stands at an address inside the map and outside the text. -/
theorem Completes.mem_old_or_written (h : Completes i s t) {c : Host.Cell} (hc : c ∈ t.mem) :
    c ∈ s.mem ∨ s.launch.admits c.1 = true ∧ s.launch.inText c.1 = false := by
  obtain heq | ⟨a, n, v, hmap, htext, heq⟩ := h.mem_cases
  · exact .inl (heq ▸ hc)
  · rw [heq] at hc
    refine (mem_writeBytes _ _ _ _ _ _ _ _ hc).imp_right fun ⟨k, _, hk, hck⟩ => ?_
    rw [hck]
    exact ⟨mapped_iff.1 hmap k (by omega), touchesText_eq_false_iff.1 htext k (by omega)⟩

theorem Completes.read?_of_inText (h : Completes i s t) {addr : Nat} (ha : s.launch.inText addr = true) :
    Memory.read? t.mem addr = Memory.read? s.mem addr := by
  obtain heq | ⟨a, n, v, -, htext, heq⟩ := h.mem_cases
  · rw [heq]
  · rw [heq]
    refine read?_writeBytes_outside _ _ _ _ _ _ _ _ fun k _ hk he => ?_
    have := touchesText_eq_false_iff.1 htext k (by omega)
    simp [← he, ha] at this

end Completed

/-! ### pc and the program text (R23, R161) -/

/-- The offset of word k of the text is 4k: the text lies inside the address space. -/
theorem textOffset_of_pc_eq {s : State} {k : Nat} (hpc : s.pc = s.launch.textBase + BitVec.ofNat 64 (4 * k))
    (hk : 4 * k < 2 ^ 64) : s.textOffset = 4 * k := by
  rw [State.textOffset, hpc, add_sub_cancel_left, BitVec.toNat_ofNat, Nat.mod_eq_of_lt hk]

theorem fetch_of_pc_eq {s : State} {k : Nat} (hpc : s.pc = s.launch.textBase + BitVec.ofNat 64 (4 * k))
    (hk : 4 * k < 2 ^ 64) : s.fetch = s.launch.text[k]? := by
  simp [State.fetch, textOffset_of_pc_eq hpc hk]

/-- Under the invariant pc is the address of a word of the text, unless it is the end. -/
theorem State.Inv.pc_word {s : State} (h : s.Inv) (hend : s.atTextEnd = false) :
    ∃ k < s.launch.text.length, s.pc = s.launch.textBase + BitVec.ofNat 64 (4 * k) := by
  obtain ⟨k, hk, hpc⟩ := h.pcInText
  refine ⟨k, lt_of_le_of_ne hk fun he => ?_, hpc⟩
  simp [State.atTextEnd, hpc, he] at hend

theorem State.Inv.four_mul_lt {s : State} (h : s.Inv) {k : Nat} (hk : k < s.launch.text.length) : 4 * k < 2 ^ 64 := by
  have hend := h.placed.2
  unfold Launch.textEnd at hend
  omega

theorem State.Inv.pc_mod_four {s : State} (h : s.Inv) : s.pc.toNat % 4 = 0 := by
  obtain ⟨k, -, hpc⟩ := h.pcInText
  have hbase := h.placed.1
  rw [hpc, BitVec.toNat_add, BitVec.toNat_ofNat]
  omega

/-! ### The instruction at pc -/

theorem step_of_current {s : State} {i : Instr} (h : s.current = .ok i) : step s = exec i s := by
  simp [step, h]

/-! ### Outcomes of the templates that complete (R70, R85, R100) -/

theorem fixedLoad_of_memRead {insn : Insn} {n : Nat} {ext : BitVec (8 * n) → Word} {rt ra : Reg} {inc : Word} {s : State}
    {m : BitVec (8 * n)} (h0 : ra ≠ 0) (hrt : ra ≠ rt) (hm : memRead s (s.readGpr ra) n = .ok m) :
    fixedLoad insn n ext rt ra inc s =
      .next (((s.writeGpr rt (ext m)).writeGpr ra (s.readGpr ra + inc)).advancePc) := by
  simp [fixedLoad, h0, hrt, hm]

theorem fixedStore_of_memWrite {insn : Insn} {n : Nat} {rs ra : Reg} {inc : Word} {s u : State} (h0 : ra ≠ 0)
    (hu : memWrite s (s.readGpr ra) n (lowBytes n (s.readGpr rs)) = .ok u) :
    fixedStore insn n rs ra inc s = .next ((u.writeGpr ra (s.readGpr ra + inc)).advancePc) := by
  simp [fixedStore, h0, hu]

theorem fpLoad_of_memRead {i : Instr} {n : Nat} {conv : BitVec (8 * n) → Word} {frt ra : Reg} {inc : Word} {s : State}
    {m : BitVec (8 * n)} (hfp : s.launch.admitFp = true) (h0 : ra ≠ 0) (hm : memRead s (s.readGpr ra) n = .ok m) :
    fpLoad i n conv frt ra inc s =
      .next (((s.writeFpr frt (conv m)).writeGpr ra (s.readGpr ra + inc)).advancePc) := by
  simp [fpLoad, hfp, h0, hm]

/-! ### Other floating-point registers (R22)

MemRead and MemWrite look at the launch parameters and memory alone, so an instruction that reads no floating-point register does
the same whatever file `f` stands in their place. -/

section OtherFpr

variable (f : Vector Word 32) {s t : State}

theorem readBytes_withFpr (a : Addr) (count : Nat) :
    ∀ i, readBytes { s with fpr := f } a i count = readBytes s a i count := by
  induction count with
  | zero => exact fun _ => rfl
  | succ c ih =>
    intro i
    have hbyte : State.byte? { s with fpr := f } = s.byte? := rfl
    simp only [readBytes, hbyte, ih]

theorem memRead_withFpr (a : Addr) (n : Nat) : memRead { s with fpr := f } a n = memRead s a n := by
  simp only [memRead, readBytes_withFpr]; rfl

theorem memWrite_withFpr {a : Addr} {n : Nat} {v : BitVec (8 * n)} (h : memWrite s a n v = .ok t) :
    memWrite { s with fpr := f } a n v = .ok { t with fpr := f } := by
  obtain ⟨halign, hmap, htext, rfl⟩ := memWrite_ok h
  exact memWrite_of_tests halign hmap htext

theorem fixedLoad_withFpr {insn : Insn} {n : Nat} {ext : BitVec (8 * n) → Word} {rt ra : Reg} {inc : Word}
    (h : fixedLoad insn n ext rt ra inc s = .next t) :
    fixedLoad insn n ext rt ra inc { s with fpr := f } = .next { t with fpr := f } := by
  obtain ⟨h0, hrt, m, hm, rfl⟩ := fixedLoad_next h
  exact fixedLoad_of_memRead h0 hrt ((memRead_withFpr f _ n).trans hm)

theorem fixedStore_withFpr {insn : Insn} {n : Nat} {rs ra : Reg} {inc : Word}
    (h : fixedStore insn n rs ra inc s = .next t) :
    fixedStore insn n rs ra inc { s with fpr := f } = .next { t with fpr := f } := by
  obtain ⟨h0, u, hu, rfl⟩ := fixedStore_next h
  exact fixedStore_of_memWrite h0 (memWrite_withFpr f hu)

/-- A floating-point load writes the same value into FRT. -/
theorem fpLoad_withFpr {i : Instr} {n : Nat} {conv : BitVec (8 * n) → Word} {frt ra : Reg} {inc : Word}
    (h : fpLoad i n conv frt ra inc s = .next t) :
    ∃ v, t.fpr.get frt = v ∧ fpLoad i n conv frt ra inc { s with fpr := f } = .next { t with fpr := f.set frt v } := by
  obtain ⟨hfp, h0, m, hm, rfl⟩ := fpLoad_next h
  exact ⟨conv m, readFpr_writeFpr_self s frt _, fpLoad_of_memRead hfp h0 ((memRead_withFpr f _ n).trans hm)⟩

end OtherFpr

/-- With another floating-point file an instruction that is no floating-point store answers the same next state but for that
file, in which its FRT holds the same value. -/
theorem exec_withFpr {i : Instr} {s t : State} (f : Vector Word 32) (hsrc : i.fprSource = none) (h : exec i s = .next t) :
    ∃ g : Vector Word 32, exec i { s with fpr := f } = .next { t with fpr := g } ∧
      ∀ r, i.fprTarget = some r → g.get r = t.fpr.get r := by
  cases i
  case lbzup | lbzupx | lhzup | lhzupx | lhaup | lhaupx | lwzup | lwzupx | lwaupx | ldup | ldupx =>
    exact ⟨f, fixedLoad_withFpr f h, nofun⟩
  case stbup | stbupx | sthup | sthupx | stwup | stwupx | stdup | stdupx =>
    exact ⟨f, fixedStore_withFpr f h, nofun⟩
  case lfdup frt _ _ | lfsup frt _ _ | lfdupx frt _ _ | lfsupx frt _ _ =>
    obtain ⟨v, hv, hexec⟩ := fpLoad_withFpr f h
    refine ⟨f.set frt v, hexec, fun r hr => ?_⟩
    obtain rfl := Option.some.inj hr
    exact (readFpr_writeFpr_self { s with fpr := f } frt v).trans hv.symm
  case stfdup | stfsup | stfdupx | stfsupx => cases hsrc
  all_goals exact absurd h (listedOnly_ne_next _ _)

end Sys2Proof.Machine
end

section
/-! The statements of the family, settled. -/

open Sys2Proof Sys2Proof.Machine

namespace Sys2Proof.StateFamily

/-! ### The invariant, pc and the text -/

/-- Settles O16: each field of the invariant from what `Completes` says of it; pc moves from word k to word k + 1. -/
theorem stepKeepsTheInvariant : Obligations.StepKeepsTheInvariant := by
  intro s t hinv hstep
  obtain ⟨hrec, hend, _, i, -, -, -, hexec⟩ := step_next hstep
  have hc := exec_next hexec
  have hrec' : t.faultRecord = [] := hc.faultRecord_eq.trans hrec
  have hpc : ∃ k ≤ t.launch.text.length, t.pc = t.launch.textBase + BitVec.ofNat 64 (4 * k) := by
    obtain ⟨k, hk, hpc⟩ := hinv.pc_word hend
    refine ⟨k + 1, by rw [hc.launch_eq]; exact hk, ?_⟩
    rw [hc.pc_eq, hpc, hc.launch_eq, Nat.mul_succ, BitVec.ofNat_add, BitVec.add_assoc]
  have hmapped : ∀ c ∈ t.mem, t.launch.admits c.1 = true := fun c hcell => by
    rw [hc.launch_eq]
    exact (hc.mem_old_or_written hcell).elim (hinv.memMapped c) And.left
  have htext : agreesWithText t.launch t.mem := fun c hcell => by
    rw [hc.launch_eq]
    exact (hc.mem_old_or_written hcell).elim (hinv.memText c) fun hw => .inl (textByte?_of_not_inText hw.2)
  have hinv' : t.Inv :=
    { opcodesWf := hc.launch_eq ▸ hinv.opcodesWf
      placed    := hc.launch_eq ▸ hinv.placed
      memWf     := hc.mem_wf hinv.memWf
      memMapped := hmapped
      memText   := htext
      pcInText  := hpc
      oneRaise  := by simp [hrec'] }
  exact ⟨hinv', hrec'⟩

/-- Settles O11, by the inversion of a step that completes. -/
theorem completedStepAddsFourToPc : Obligations.CompletedStepAddsFourToPc := by
  intro s t hstep
  obtain ⟨-, -, _, _, -, -, -, hexec⟩ := step_next hstep
  exact (exec_next hexec).pc_eq

/-- Settles O12: a store that completes passed the test of R33 (3). -/
theorem textAndParametersNeverChange : Obligations.TextAndParametersNeverChange := by
  intro s t hstep
  obtain ⟨-, -, _, _, -, -, -, hexec⟩ := step_next hstep
  exact ⟨(exec_next hexec).launch_eq, fun _ => (exec_next hexec).read?_of_inText⟩

/-- Settles O18: fetch at word k of the text. -/
theorem pcIsAlignedAndInText : Obligations.PcIsAlignedAndInText := by
  intro s hinv hrec
  refine ⟨hinv.pc_mod_four, fun hfinal => ?_⟩
  have hend : s.atTextEnd = false := by simpa [State.isFinal, hrec] using hfinal
  obtain ⟨k, hk, hpc⟩ := hinv.pc_word hend
  have hword : s.launch.text[k]? = some s.launch.text[k] := List.getElem?_eq_getElem hk
  exact ⟨k, _, hpc, hword, (fetch_of_pc_eq hpc (hinv.four_mul_lt hk)).trans hword⟩

/-! ### Frames: what an instruction leaves unchanged -/

/-- Settles O52: an instruction with a target among the general registers can complete only as a fixed-point load. -/
theorem fixedLoadFrame : Obligations.FixedLoadFrame := by
  intro i s t rt ra n htgt hacc hexec
  cases exec_next hexec with
  | fixedLoad v inc acc tgt _ _ _ _ _ result =>
    obtain ⟨rfl, rfl⟩ : ra = _ ∧ n = _ := by simpa [hacc] using acc
    obtain rfl : rt = _ := by simpa [htgt] using tgt
    subst result
    refine ⟨fun r hrt hra => ?_, rfl, fun _ => rfl, rfl, rfl, rfl, rfl⟩
    exact (readGpr_writeGpr_ne _ _ _ _ hra.symm).trans (readGpr_writeGpr_ne _ _ _ _ hrt.symm)
  | fpLoad _ _ _ _ _ noGpr => simp [htgt] at noGpr
  | store _ _ _ _ _ _ noGpr => simp [htgt] at noGpr

/-- Settles O53: an instruction with a target among the floating-point registers can complete only as a floating-point load. -/
theorem fpLoadFrame : Obligations.FpLoadFrame := by
  intro i s t frt ra n htgt hacc hexec
  cases exec_next hexec with
  | fixedLoad _ _ _ _ _ noFpr => simp [htgt] at noFpr
  | fpLoad v inc acc tgt _ _ _ _ _ result =>
    obtain ⟨rfl, rfl⟩ : ra = _ ∧ n = _ := by simpa [hacc] using acc
    obtain rfl : frt = _ := by simpa [htgt] using tgt
    subst result
    exact ⟨fun r hra => readGpr_writeGpr_ne _ _ _ _ hra.symm, fun r hfrt => readFpr_writeFpr_ne _ _ _ _ hfrt.symm,
      fun _ => rfl, rfl, rfl, rfl, rfl⟩
  | store _ _ _ _ _ _ _ noFpr => simp [htgt] at noFpr

/-- Settles O54: an instruction with a store access can complete only as a store, and MemWrite writes its n bytes alone. -/
theorem storeFrame : Obligations.StoreFrame := by
  intro i s t ra n hacc hexec
  cases exec_next hexec with
  | fixedLoad _ _ _ _ noStore => simp [hacc] at noStore
  | fpLoad _ _ _ _ noStore => simp [hacc] at noStore
  | store v u k inc acc _ _ _ _ _ drawn wrote result =>
    obtain ⟨rfl, rfl⟩ : ra = _ ∧ n = _ := by simpa [hacc] using acc
    obtain ⟨-, -, -, rfl⟩ := memWrite_ok wrote
    subst result
    refine ⟨fun r hra => readGpr_writeGpr_ne _ _ _ _ hra.symm, rfl, fun addr hout => ?_, rfl, rfl, drawn⟩
    exact read?_writeBytes_outside _ _ _ _ _ _ _ _ fun j _ hj => hout j (by omega)

/-- Settles O55: the floating-point registers and memory, kind of instruction by kind. -/
theorem onlyFpLoadsWriteFprOnlyStoresWriteMemory : Obligations.OnlyFpLoadsWriteFprOnlyStoresWriteMemory := by
  intro s t i hcur hstep
  have hexec : exec i s = .next t := (step_of_current hcur).symm.trans hstep
  cases exec_next hexec with
  | fixedLoad _ _ _ _ _ _ _ _ _ result => subst result; exact ⟨fun _ => rfl, fun _ => rfl⟩
  | fpLoad _ _ _ tgt _ _ _ _ _ result => subst result; exact ⟨fun hno => by simp [hno] at tgt, fun _ => rfl⟩
  | store _ _ _ _ acc _ _ _ _ _ _ wrote result =>
    obtain ⟨-, -, -, rfl⟩ := memWrite_ok wrote
    subst result; exact ⟨fun _ => rfl, fun hno => by simp [hno] at acc⟩

/-- Settles O56: RA is never 0 in an instruction that completes (R61). -/
theorem gprZeroChangesOnlyAsTarget : Obligations.GprZeroChangesOnlyAsTarget := by
  intro s t i hcur hstep htgt
  have hexec : exec i s = .next t := (step_of_current hcur).symm.trans hstep
  cases exec_next hexec with
  | fixedLoad v inc _ tgt _ _ base _ _ result =>
    have hrt : _ ≠ (0 : Reg) := fun he => htgt (he ▸ tgt)
    subst result
    exact (readGpr_writeGpr_ne _ _ _ _ base).trans (readGpr_writeGpr_ne _ _ _ _ hrt)
  | fpLoad _ _ _ _ _ _ base _ _ result => subst result; exact readGpr_writeGpr_ne _ _ _ _ base
  | store _ _ _ _ _ _ _ _ base _ _ wrote result =>
    obtain ⟨-, -, -, rfl⟩ := memWrite_ok wrote
    subst result; exact readGpr_writeGpr_ne _ _ _ _ base

/-- Settles O57, by running the instruction again with the other file. -/
theorem onlyFpStoresReadFpr : Obligations.OnlyFpStoresReadFpr := by
  intro i s t f hsrc hexec
  obtain ⟨g, hg, htarget⟩ := exec_withFpr f hsrc hexec
  exact ⟨_, hg, rfl, rfl, rfl, rfl, rfl, htarget⟩

end Sys2Proof.StateFamily
end

section
/-! The laws of memory for the family of spec/20_memory.md: the bytes of a value, what MemRead and MemWrite answer, the bytes of
the program text, and what a store does where MemWrite raises. -/

namespace Sys2Proof.Machine

/-! ### The bytes of a value (R31) -/

section Bytes

variable {order : ByteOrder} {n : Nat}

/-- R31 in one formula: where the byte at offset k of an access stands in the value. -/
theorem byteOf_eq_extractLsb' (v : BitVec (8 * n)) (k : Nat) :
    byteOf order n v k = v.extractLsb' (if order = .be then 8 * (n - 1 - k) else 8 * k) 8 := by
  cases order <;> rfl

/-- A value is determined by its bytes. -/
theorem eq_of_byteOf_eq {v w : BitVec (8 * n)} (h : ∀ k < n, byteOf order n v k = byteOf order n w k) : v = w := by
  refine BitVec.eq_of_getLsbD_eq fun j hj => ?_
  have hbit : j % 8 < 8 := Nat.mod_lt _ (by omega)
  cases order with
  | be =>
    have hpos : 8 * (n - 1 - (n - 1 - j / 8)) + j % 8 = j := by omega
    have hbyte := congrArg (·.getLsbD (j % 8)) (h (n - 1 - j / 8) (by omega))
    simpa [byteOf, hbit, hpos] using hbyte
  | le =>
    have hpos : 8 * (j / 8) + j % 8 = j := by omega
    have hbyte := congrArg (·.getLsbD (j % 8)) (h (j / 8) (by omega))
    simpa [byteOf, hbit, hpos] using hbyte

theorem bytesToNat_lt (bs : List Byte) : bytesToNat bs < 256 ^ bs.length := by
  induction bs with
  | nil => simp [bytesToNat]
  | cons b bs ih =>
    have hb : b.toNat + 1 ≤ 256 := b.isLt
    calc b.toNat * 256 ^ bs.length + bytesToNat bs
        < (b.toNat + 1) * 256 ^ bs.length := by rw [Nat.succ_mul]; omega
      _ ≤ 256 * 256 ^ bs.length := Nat.mul_le_mul_right _ hb
      _ = 256 ^ (b :: bs).length := (Nat.pow_succ').symm

/-- The base-256 digits of `bytesToNat bs`, most significant first, are the bytes. -/
theorem bytesToNat_digit {bs : List Byte} {k : Nat} (hk : k < bs.length) :
    bytesToNat bs / 256 ^ (bs.length - 1 - k) % 256 = bs[k].toNat := by
  induction bs generalizing k with
  | nil => cases hk
  | cons b bs ih =>
    cases k with
    | zero =>
      have hb : b.toNat < 256 := b.isLt
      have hdiv : bytesToNat (b :: bs) / 256 ^ bs.length = b.toNat := by
        rw [bytesToNat, Nat.mul_comm, Nat.mul_add_div (Nat.pow_pos (by norm_num)),
          Nat.div_eq_of_lt (bytesToNat_lt bs), Nat.add_zero]
      simpa [hdiv] using Nat.mod_eq_of_lt hb
    | succ k =>
      have hk' : k < bs.length := by simpa using hk
      have hexp : (b :: bs).length - 1 - (k + 1) = bs.length - 1 - k := by rw [List.length_cons]; omega
      have hpow : 256 ^ bs.length = 256 ^ (bs.length - 1 - k) * (256 * 256 ^ k) := by
        rw [← Nat.pow_succ', ← Nat.pow_add]; congr 1; omega
      have hsum : bytesToNat (b :: bs) =
          256 ^ (bs.length - 1 - k) * (256 * (256 ^ k * b.toNat)) + bytesToNat bs := by
        rw [bytesToNat, hpow]; ring
      rw [hexp, hsum, Nat.mul_add_div (Nat.pow_pos (by norm_num)), Nat.mul_add_mod, ih hk', List.getElem_cons_succ]

theorem extractLsb'_ofNat_bytesToNat {bs : List Byte} {k : Nat} (hk : k < bs.length) (hlen : bs.length = n) :
    (BitVec.ofNat (8 * n) (bytesToNat bs)).extractLsb' (8 * (n - 1 - k)) 8 = bs[k] := by
  subst hlen
  have hpow (m : Nat) : 2 ^ (8 * m) = 256 ^ m := by rw [Nat.pow_mul]
  refine BitVec.eq_of_toNat_eq ?_
  rw [BitVec.extractLsb'_toNat, BitVec.toNat_ofNat, hpow, Nat.mod_eq_of_lt (bytesToNat_lt bs), Nat.shiftRight_eq_div_pow,
    hpow]
  exact bytesToNat_digit hk

/-- The byte at offset k of the assembled value is byte k of the access (R31, R32 (4)). -/
theorem byteOf_assemble {bs : List Byte} (hlen : bs.length = n) {k : Nat} (hk : k < n) :
    bs[k]? = some (byteOf order n (assemble order n bs) k) := by
  subst hlen
  rw [List.getElem?_eq_getElem hk, Option.some_inj]
  cases order with
  | be => exact (extractLsb'_ofNat_bytesToNat hk rfl).symm
  | le =>
    have hrev := extractLsb'_ofNat_bytesToNat (n := bs.length) (bs := bs.reverse) (k := bs.length - 1 - k)
      (by rw [List.length_reverse]; omega) List.length_reverse
    have hpos : bs.length - 1 - (bs.length - 1 - k) = k := by omega
    simp only [hpos, List.getElem_reverse] at hrev
    exact hrev.symm

theorem byteOf_one (v : BitVec (8 * 1)) : byteOf order 1 v 0 = v := by
  cases order <;> exact BitVec.extractLsb'_eq_self

/-- The four bytes of a word, lowest address first, make the word again. -/
theorem assembleInsn_byteOf (order : ByteOrder) (w : Insn) :
    assembleInsn order (byteOf order 4 w 0) (byteOf order 4 w 1) (byteOf order 4 w 2) (byteOf order 4 w 3) = w := by
  have hjoin : w.extractLsb' 24 8 ++ w.extractLsb' 16 8 ++ w.extractLsb' 8 8 ++ w.extractLsb' 0 8 = w := by
    rw [BitVec.extractLsb'_append_extractLsb'_eq_extractLsb' (show 24 = 16 + 8 from rfl),
      BitVec.extractLsb'_append_extractLsb'_eq_extractLsb' (show 16 = 8 + 8 from rfl),
      BitVec.extractLsb'_append_extractLsb'_eq_extractLsb' (show 8 = 0 + 8 from rfl), BitVec.extractLsb'_eq_self]
  cases order <;> exact hjoin

theorem decodeBytes_byteOf {ops : Opcodes} {w : Insn} {i : Instr} (order : ByteOrder) (rest : List Byte)
    (h : decode ops w = .ok i) :
    decodeBytes ops order (byteOf order 4 w 0 :: byteOf order 4 w 1 :: byteOf order 4 w 2 :: byteOf order 4 w 3 :: rest) =
      .ok (i, rest) := by
  simp [decodeBytes, assembleInsn_byteOf, h]

end Bytes

/-! ### The tests of an access (R32 to R35) -/

section Access

variable {s t : State} {a : Addr} {n : Nat}

theorem misalignedFaults_iff :
    s.misalignedFaults a n = true ↔ s.launch.misaligned = .fault ∧ a.toNat % n ≠ 0 := by
  simp [State.misalignedFaults]

theorem misalignedFaults_eq_false_iff :
    s.misalignedFaults a n = false ↔ (s.launch.misaligned = .fault → a.toNat % n = 0) := by
  simp [State.misalignedFaults]

theorem accessible_iff : Accessible s a n ↔ s.misalignedFaults a n = false ∧ s.mapped a n = true := by
  rw [misalignedFaults_eq_false_iff, mapped_iff]

theorem mapped_eq_false_iff : s.mapped a n = false ↔ ∃ k < n, s.launch.admits (byteAddr a k) = false := by
  simp [State.mapped]

theorem touchesText_iff : s.touchesText a n = true ↔ ∃ k < n, s.launch.inText (byteAddr a k) = true := by
  simp [State.touchesText]

theorem writable_iff : Writable s a n ↔ Accessible s a n ∧ s.touchesText a n = false := by
  rw [touchesText_eq_false_iff]

/-! ### The bytes a load reads (R32 (3), R45) -/

theorem readBytes_of_isSome {i count : Nat} (h : ∀ k < count, (s.byte? (byteAddr a (i + k))).isSome = true) :
    ∃ bs, readBytes s a i count = .ok bs := by
  induction count generalizing i with
  | zero => exact ⟨[], rfl⟩
  | succ c ih =>
    obtain ⟨b, hb⟩ := Option.isSome_iff_exists.1 (h 0 (by omega))
    rw [Nat.add_zero] at hb
    obtain ⟨bs, hbs⟩ := ih (i := i + 1) fun k hk => Nat.add_right_comm i 1 k ▸ h (k + 1) (by omega)
    exact ⟨b :: bs, by simp [readBytes, hb, hbs]⟩

/-- The first byte without a value for a load is the one that Unwritten names. -/
theorem readBytes_first_missing {i k count : Nat} (hk : k < count)
    (hsome : ∀ j < k, (s.byte? (byteAddr a (i + j))).isSome = true) (hnone : s.byte? (byteAddr a (i + k)) = none) :
    readBytes s a i count = .error (.unwritten (BitVec.ofNat 64 (byteAddr a (i + k)))) := by
  induction count generalizing i k with
  | zero => cases hk
  | succ c ih =>
    cases k with
    | zero =>
      rw [Nat.add_zero] at hnone ⊢
      simp [readBytes, hnone]
    | succ k =>
      obtain ⟨b, hb⟩ := Option.isSome_iff_exists.1 (hsome 0 (by omega))
      rw [Nat.add_zero] at hb
      have hshift (j : Nat) : i + 1 + j = i + (j + 1) := Nat.add_right_comm i 1 j
      have hrest := ih (i := i + 1) (k := k) (by omega) (fun j hj => hshift j ▸ hsome (j + 1) (by omega)) (hshift k ▸ hnone)
      simp [readBytes, hb, hrest, hshift]

/-! ### What MemRead answers (R32) -/

theorem memRead_of_misaligned (h : s.misalignedFaults a n = true) :
    memRead s a n = .error (.fault (.alignmentFault a)) := by
  simp [memRead, h]

theorem memRead_of_unmapped (halign : s.misalignedFaults a n = false) (hmap : s.mapped a n = false) :
    memRead s a n = .error (.fault (.storageFault a)) := by
  simp [memRead, halign, hmap]

theorem memRead_of_first_missing {k : Nat} (hacc : Accessible s a n) (hk : k < n)
    (hsome : ∀ j < k, (s.byte? (byteAddr a j)).isSome = true) (hnone : s.byte? (byteAddr a k) = none) :
    memRead s a n = .error (.fault (.unwritten (BitVec.ofNat 64 (byteAddr a k)))) := by
  obtain ⟨halign, hmap⟩ := accessible_iff.1 hacc
  have hbytes := readBytes_first_missing (i := 0) hk (by simpa using hsome) (by simpa using hnone)
  simp [memRead, halign, hmap, hbytes]

/-- Where some byte has no value for a load, the least such offset gives the Unwritten. -/
theorem memRead_of_missing {k : Nat} (hacc : Accessible s a n) (hk : k < n) (hnone : s.byte? (byteAddr a k) = none) :
    ∃ b, memRead s a n = .error (.fault (.unwritten b)) := by
  have hex : ∃ j, s.byte? (byteAddr a j) = none := ⟨k, hnone⟩
  have hlt : Nat.find hex < n := (Nat.find_le hnone).trans_lt hk
  have hbelow : ∀ j < Nat.find hex, (s.byte? (byteAddr a j)).isSome = true := fun j hj =>
    Option.isSome_iff_ne_none.2 (Nat.find_min hex hj)
  exact ⟨_, memRead_of_first_missing hacc hlt hbelow (Nat.find_spec hex)⟩

theorem memRead_of_readable (h : Readable s a n) : ∃ v, memRead s a n = .ok v := by
  obtain ⟨hacc, hsome⟩ := h
  obtain ⟨halign, hmap⟩ := accessible_iff.1 hacc
  obtain ⟨bs, hbs⟩ := readBytes_of_isSome (s := s) (a := a) (i := 0) (by simpa using hsome)
  exact ⟨assemble s.launch.byteOrder n bs, by simp [memRead, halign, hmap, hbs]⟩

theorem byte?_of_memRead {v : BitVec (8 * n)} (h : memRead s a n = .ok v) {k : Nat} (hk : k < n) :
    s.byte? (byteAddr a k) = some (byteOf s.launch.byteOrder n v k) := by
  obtain ⟨-, -, bs, hbs, rfl⟩ := memRead_ok h
  obtain ⟨hlen, hbyte⟩ := readBytes_ok hbs
  have hk' := hbyte k hk
  rw [Nat.zero_add] at hk'
  exact hk'.symm.trans (byteOf_assemble hlen hk)

/-- R32 in one formula: MemRead answers the value whose bytes, in the byte order, are the bytes a load reads. -/
theorem memRead_eq_ok_iff {v : BitVec (8 * n)} : memRead s a n = .ok v ↔
    Accessible s a n ∧ ∀ k < n, s.byte? (byteAddr a k) = some (byteOf s.launch.byteOrder n v k) := by
  constructor
  · intro h
    obtain ⟨halign, hmap, -⟩ := memRead_ok h
    exact ⟨accessible_iff.2 ⟨halign, hmap⟩, fun _ => byte?_of_memRead h⟩
  · rintro ⟨hacc, hbytes⟩
    obtain ⟨w, hw⟩ := memRead_of_readable ⟨hacc, fun k hk => by simp [hbytes k hk]⟩
    have hwv : w = v := eq_of_byteOf_eq fun k hk =>
      Option.some.inj ((byte?_of_memRead hw hk).symm.trans (hbytes k hk))
    rw [hw, hwv]

/-! ### What MemWrite answers (R33) -/

section Write

variable {v : BitVec (8 * n)}

theorem memWrite_of_misaligned (h : s.misalignedFaults a n = true) :
    memWrite s a n v = .error (.fault (.alignmentFault a)) := by
  simp [memWrite, h]

theorem memWrite_of_unmapped (halign : s.misalignedFaults a n = false) (hmap : s.mapped a n = false) :
    memWrite s a n v = .error (.fault (.storageFault a)) := by
  simp [memWrite, halign, hmap]

theorem memWrite_of_touchesText (hacc : Accessible s a n) (htext : s.touchesText a n = true) :
    memWrite s a n v = .error (.refusal .storeToText) := by
  obtain ⟨halign, hmap⟩ := accessible_iff.1 hacc
  simp [memWrite, halign, hmap, htext]

/-- R33 in one formula: MemWrite answers where the access is writable, and the answer differs in memory alone. -/
theorem memWrite_eq_ok_iff : memWrite s a n v = .ok t ↔
    Writable s a n ∧ t = { s with mem := writeBytes s.launch.byteOrder a n v 0 n s.mem } := by
  constructor
  · intro h
    obtain ⟨halign, hmap, htext, ht⟩ := memWrite_ok h
    exact ⟨writable_iff.2 ⟨accessible_iff.2 ⟨halign, hmap⟩, htext⟩, ht⟩
  · rintro ⟨hwr, rfl⟩
    obtain ⟨hacc, htext⟩ := writable_iff.1 hwr
    obtain ⟨halign, hmap⟩ := accessible_iff.1 hacc
    exact memWrite_of_tests halign hmap htext

theorem memWrite_launch (h : memWrite s a n v = .ok t) : t.launch = s.launch := by
  obtain ⟨-, -, -, rfl⟩ := memWrite_ok h; rfl

theorem memWrite_read?_inside (h : memWrite s a n v = .ok t) (hn : n ≤ 2 ^ 64) {k : Nat} (hk : k < n) :
    Memory.read? t.mem (byteAddr a k) = some (byteOf s.launch.byteOrder n v k) := by
  obtain ⟨-, -, -, rfl⟩ := memWrite_ok h
  exact read?_writeBytes_inside _ _ _ _ _ _ _ _ (by omega) (Nat.zero_le k) (by omega)

theorem memWrite_read?_outside (h : memWrite s a n v = .ok t) {addr : Nat} (hout : ∀ k < n, addr ≠ byteAddr a k) :
    Memory.read? t.mem addr = Memory.read? s.mem addr := by
  obtain ⟨-, -, -, rfl⟩ := memWrite_ok h
  exact read?_writeBytes_outside _ _ _ _ _ _ _ _ fun k _ hk => hout k (by omega)

/-- A store writes no byte of the program text, so a load finds the bytes it wrote. -/
theorem memWrite_byte? (h : memWrite s a n v = .ok t) (hn : n ≤ 2 ^ 64) {k : Nat} (hk : k < n) :
    t.byte? (byteAddr a k) = some (byteOf s.launch.byteOrder n v k) := by
  obtain ⟨⟨-, htext⟩, -⟩ := memWrite_eq_ok_iff.1 h
  rw [byte?_of_not_inText (by rw [memWrite_launch h]; exact htext k hk), memWrite_read?_inside h hn hk]

/-- The access of a store exists for a load from the state it leaves. -/
theorem memWrite_accessible (h : memWrite s a n v = .ok t) : Accessible t a n := by
  obtain ⟨⟨hacc, -⟩, -⟩ := memWrite_eq_ok_iff.1 h
  rwa [Accessible, memWrite_launch h]

end Write

end Access

/-! ### The bytes of the program text (R27, R45) -/

section Text

variable {s : State} {k j : Nat} {w : Insn}

theorem inText_iff {l : Launch} {addr : Nat} : l.inText addr = true ↔ l.textBase.toNat ≤ addr ∧ addr < l.textEnd := by
  simp [Launch.inText]

/-- Byte j of word k of the text, at its address: the text ends inside the address space, so the address does not wrap. -/
theorem byteAddr_textWord {l : Launch} (hplaced : l.placed) (hk : k < l.text.length) (hj : j < 4) :
    byteAddr (l.textBase + BitVec.ofNat 64 (4 * k)) j = l.textBase.toNat + (4 * k + j) := by
  have hend := hplaced.2
  unfold Launch.textEnd at hend
  rw [byteAddr, BitVec.toNat_add, BitVec.toNat_ofNat]
  omega

theorem textByte?_textWord {l : Launch} (hplaced : l.placed) (hw : l.text[k]? = some w) (hj : j < 4) :
    textByte? l (byteAddr (l.textBase + BitVec.ofNat 64 (4 * k)) j) = some (byteOf l.byteOrder 4 w j) := by
  obtain ⟨hk, -⟩ := List.getElem?_eq_some_iff.1 hw
  have hin : l.inText (l.textBase.toNat + (4 * k + j)) = true := by
    rw [inText_iff, Launch.textEnd]
    omega
  have hword : (4 * k + j) / 4 = k := by omega
  have hbyte : (4 * k + j) % 4 = j := by omega
  rw [byteAddr_textWord hplaced hk hj, textByte?, if_pos hin, Nat.add_sub_cancel_left, hword, hbyte, hw, Option.map_some]

theorem byte?_of_textByte? {addr : Nat} {b : Byte} (h : textByte? s.launch addr = some b) :
    s.byte? addr = if Memory.read? s.mem addr = some b then some b else none := by
  simp [State.byte?, h]

end Text

/-! ### Stores where MemWrite raises (R85, R100) -/

section StoreRaises

variable {s : State} {n : Nat} {ra : Reg} {x : Stop}

theorem fixedStore_of_memWrite_error {insn : Insn} {rs : Reg} {inc : Word} (h0 : ra ≠ 0)
    (hx : memWrite s (s.readGpr ra) n (lowBytes n (s.readGpr rs)) = .error x) :
    fixedStore insn n rs ra inc s = raise x := by
  simp [fixedStore, h0, hx]

theorem fpStore_of_memWrite_error {i : Instr} {conv : Word → State → BitVec (8 * n) × State} {frs : Reg} {inc : Word}
    (hfp : s.launch.admitFp = true) (h0 : ra ≠ 0)
    (hx : memWrite (conv (s.readFpr frs) s).2 (s.readGpr ra) n (conv (s.readFpr frs) s).1 = .error x) :
    fpStore i n conv frs ra inc s = raise x := by
  simp [fpStore, hfp, h0, hx]

/-- Where MemWrite raises whatever value is stored and whatever free value was drawn, so does each of the 12 stores in a valid
form. -/
theorem exec_store_of_memWrite_error {i : Instr} (hform : i.formOk = true) (hfp : i.isFp = true → s.launch.admitFp = true)
    (hacc : i.storeAccess = some (ra, n))
    (hx : ∀ (d : Nat) (v : BitVec (8 * n)), memWrite { s with draws := d } (s.readGpr ra) n v = .error x) :
    exec i s = raise x := by
  cases i
  case stbup | stbupx | sthup | sthupx | stwup | stwupx | stdup | stdupx =>
    cases hacc
    exact fixedStore_of_memWrite_error (by simpa [Instr.formOk] using hform) (hx s.draws _)
  case stfdup | stfdupx =>
    cases hacc
    exact fpStore_of_memWrite_error (hfp rfl) (by simpa [Instr.formOk] using hform) (hx s.draws _)
  case stfsup frs _ _ | stfsupx frs _ _ =>
    cases hacc
    obtain ⟨d, hd⟩ := singleToStore_snd (s.readFpr frs) s
    refine fpStore_of_memWrite_error (hfp rfl) (by simpa [Instr.formOk] using hform) ?_
    rw [hd]
    exact hx d _
  all_goals cases hacc

end StoreRaises

end Sys2Proof.Machine
end

section
/-! The statements of the family of spec/20_memory.md, settled. -/

open Sys2Proof Sys2Proof.Machine Sys2Proof.Claims

namespace Sys2Proof.MemoryFamily

theorem isWidth_le {n : Nat} (h : IsWidth n) : n ≤ 2 ^ 64 := by
  rcases h with rfl | rfl | rfl | rfl <;> norm_num

/-- Settles O7, in each byte order by `decodeBytes_byteOf`. -/
theorem imageBytesDecodeByByteOrder : Obligations.ImageBytesDecodeByByteOrder :=
  fun _ _ _ rest h => ⟨decodeBytes_byteOf .be rest h, decodeBytes_byteOf .le rest h⟩

/-- Settles O20, test by test in the order of R32. -/
theorem memReadOutcomes : Obligations.MemReadOutcomes := by
  intro s a n _
  refine ⟨fun hmis hodd => ?_, fun halign hout => ?_, fun k hk hacc hsome hnone => ?_, memRead_of_readable⟩
  · exact memRead_of_misaligned (misalignedFaults_iff.2 ⟨hmis, hodd⟩)
  · exact memRead_of_unmapped (misalignedFaults_eq_false_iff.2 halign) (mapped_eq_false_iff.2 hout)
  · exact memRead_of_first_missing hacc hk hsome hnone

/-- Settles O21: a byte a load reads is the byte memory holds. -/
theorem memReadAssemblesTheBytes : Obligations.MemReadAssemblesTheBytes := by
  intro s a n v _ h k hk
  rw [← byteOf_eq_extractLsb']
  exact (byte?_some (byte?_of_memRead h hk)).1

/-- Settles O22, test by test in the order of R33. -/
theorem memWriteOutcomes : Obligations.MemWriteOutcomes := by
  intro s a n v _
  refine ⟨fun hmis hodd => ?_, fun halign hout => ?_, fun hacc htext => ?_, fun hwr => ?_⟩
  · exact memWrite_of_misaligned (misalignedFaults_iff.2 ⟨hmis, hodd⟩)
  · exact memWrite_of_unmapped (misalignedFaults_eq_false_iff.2 halign) (mapped_eq_false_iff.2 hout)
  · exact memWrite_of_touchesText hacc (touchesText_iff.2 htext)
  · exact ⟨_, memWrite_eq_ok_iff.2 ⟨hwr, rfl⟩⟩

/-- Settles O23, from what memory reads inside and outside the access. -/
theorem memWriteStoresTheBytes : Obligations.MemWriteStoresTheBytes := by
  intro s t a n v hn h
  refine ⟨fun k hk => ?_, fun addr hout => memWrite_read?_outside h hout, ?_, memWrite_wf h⟩
  · rw [← byteOf_eq_extractLsb']
    exact memWrite_read?_inside h (isWidth_le hn) hk
  · obtain ⟨-, -, -, rfl⟩ := memWrite_ok h
    rfl

/-- Settles O24: the load finds the bytes of the value stored, and they determine it. -/
theorem storeThenLoadGivesTheValue : Obligations.StoreThenLoadGivesTheValue := by
  intro s t a n v hn h
  refine memRead_eq_ok_iff.2 ⟨memWrite_accessible h, fun k hk => ?_⟩
  rw [memWrite_launch h]
  exact memWrite_byte? h (isWidth_le hn) hk

/-- Settles O25: the byte at offset 0 of the halfword. A byte access is never misaligned. -/
theorem byteOfStoredHalfword : Obligations.ByteOfStoredHalfword := by
  intro s t a v h
  have hacc : Accessible t a 1 := ⟨fun _ => Nat.mod_one _, fun k hk => (memWrite_accessible h).2 k (by omega)⟩
  have hbyte : byteOf s.launch.byteOrder 2 v 0 =
      if s.launch.byteOrder = .be then v.extractLsb' 8 8 else v.extractLsb' 0 8 := by
    cases s.launch.byteOrder <;> rfl
  refine memRead_eq_ok_iff.2 ⟨hacc, fun k hk => ?_⟩
  obtain rfl : k = 0 := by omega
  rw [byteOf_one, ← hbyte]
  exact memWrite_byte? h (by norm_num) (by norm_num)

/-- Settles O31: MemWrite refuses whatever value the store stores. -/
theorem storeToTextRefused : Obligations.StoreToTextRefused := by
  intro i s ra n hform hfp hacc haccess htext
  exact exec_store_of_memWrite_error (x := .refusal .storeToText) hform hfp hacc fun d _ =>
    memWrite_of_touchesText (s := { s with draws := d }) haccess (touchesText_iff.2 htext)

/-- Settles O60: in the text a load reads the text's byte where memory holds it, and no byte where it does not. -/
theorem loadFromTextReadsTheText : Obligations.LoadFromTextReadsTheText := by
  intro s k w hplaced hw a
  have htext : ∀ j < 4, textByte? s.launch (byteAddr a j) = some (byteOf s.launch.byteOrder 4 w j) :=
    fun j hj => textByte?_textWord hplaced hw hj
  have hbyte (j : Nat) : byteOf s.launch.byteOrder 4 w j =
      w.extractLsb' (if s.launch.byteOrder = .be then 8 * (3 - j) else 8 * j) 8 := byteOf_eq_extractLsb' (n := 4) w j
  refine ⟨fun v hv => ?_, fun hacc hmem => ?_, fun hacc ⟨j, hj, hmem⟩ => ?_⟩
  · exact eq_of_byteOf_eq fun j hj => (byte?_some (byte?_of_memRead hv hj)).2 _ (htext j hj)
  · refine memRead_eq_ok_iff.2 ⟨hacc, fun j hj => ?_⟩
    rw [byte?_of_textByte? (htext j hj), hbyte, if_pos (hmem j hj)]
  · refine memRead_of_missing hacc hj ?_
    rw [byte?_of_textByte? (htext j hj), hbyte, if_neg hmem]

end Sys2Proof.MemoryFamily
end

section
/-! The laws of the encoding for the family of spec/30_encoding.md: a word is its fields in order, what a row reads and how its
instruction encodes, the words no row accepts, the invalid forms, and what an instruction does under another allocation. -/

open Sys2Proof.Claims

namespace Sys2Proof

/-! ### A word is its fields in order (R52 to R54) -/

theorem dForm_fields (w : Insn) : dForm (w.extractLsb' 26 6) (fieldRT w) (fieldRA w) (fieldD w) = w := by
  change w.extractLsb' 26 6 ++ w.extractLsb' 21 5 ++ w.extractLsb' 16 5 ++ w.extractLsb' 0 16 = w
  rw [BitVec.extractLsb'_append_extractLsb'_eq_extractLsb' (show 26 = 21 + 5 from rfl),
    BitVec.extractLsb'_append_extractLsb'_eq_extractLsb' (show 21 = 16 + 5 from rfl),
    BitVec.extractLsb'_append_extractLsb'_eq_extractLsb' (show 16 = 0 + 16 from rfl), BitVec.extractLsb'_eq_self]

theorem dsForm_fields (w : Insn) :
    dsForm (w.extractLsb' 26 6) (fieldRT w) (fieldRA w) (fieldDS w) (w.extractLsb' 0 2) = w := by
  change w.extractLsb' 26 6 ++ w.extractLsb' 21 5 ++ w.extractLsb' 16 5 ++ w.extractLsb' 2 14 ++ w.extractLsb' 0 2 = w
  rw [BitVec.extractLsb'_append_extractLsb'_eq_extractLsb' (show 26 = 21 + 5 from rfl),
    BitVec.extractLsb'_append_extractLsb'_eq_extractLsb' (show 21 = 16 + 5 from rfl),
    BitVec.extractLsb'_append_extractLsb'_eq_extractLsb' (show 16 = 2 + 14 from rfl),
    BitVec.extractLsb'_append_extractLsb'_eq_extractLsb' (show 2 = 0 + 2 from rfl), BitVec.extractLsb'_eq_self]

theorem xForm_fields {w : Insn} (h0 : w.extractLsb' 0 1 = 0#1) :
    xForm (w.extractLsb' 26 6) (fieldRT w) (fieldRA w) (fieldRB w) (w.extractLsb' 1 10) = w := by
  change w.extractLsb' 26 6 ++ w.extractLsb' 21 5 ++ w.extractLsb' 16 5 ++ w.extractLsb' 11 5 ++ w.extractLsb' 1 10 ++
    0#1 = w
  rw [← h0, BitVec.extractLsb'_append_extractLsb'_eq_extractLsb' (show 26 = 21 + 5 from rfl),
    BitVec.extractLsb'_append_extractLsb'_eq_extractLsb' (show 21 = 16 + 5 from rfl),
    BitVec.extractLsb'_append_extractLsb'_eq_extractLsb' (show 16 = 11 + 5 from rfl),
    BitVec.extractLsb'_append_extractLsb'_eq_extractLsb' (show 11 = 1 + 10 from rfl),
    BitVec.extractLsb'_append_extractLsb'_eq_extractLsb' (show 1 = 0 + 1 from rfl), BitVec.extractLsb'_eq_self]

/-! ### The fields a mask fixes -/

/-- A word under a row's pattern has the pattern's value in every field that the mask fixes. -/
theorem field_of_mask {w m p : Insn} (start len : Nat) (hm : ∀ i < len, m.getLsbD (start + i) = true)
    (h : w &&& m = p) : w.extractLsb' start len = p.extractLsb' start len := by
  subst h
  refine BitVec.eq_of_getLsbD_eq fun i hi => ?_
  simp [hi, hm i hi]

theorem primary_of_maskD {w : Insn} {po : BitVec 6} (h : w &&& maskD = patternD po) : w.extractLsb' 26 6 = po :=
  (field_of_mask 26 6 (by decide) h).trans (patternD_at po).2.1

theorem opcodes_of_maskDS {w : Insn} {po : BitVec 6} {xo : BitVec 2} (h : w &&& maskDS = patternDS po xo) :
    w.extractLsb' 26 6 = po ∧ w.extractLsb' 0 2 = xo :=
  ⟨(field_of_mask 26 6 (by decide) h).trans (patternDS_at po xo).2.1,
    (field_of_mask 0 2 (by decide) h).trans BitVec.extractLsb'_append_eq_right⟩

theorem opcodes_of_maskX {w : Insn} {po : BitVec 6} {xo : BitVec 10} (h : w &&& maskX = patternX po xo) :
    w.extractLsb' 26 6 = po ∧ w.extractLsb' 1 10 = xo ∧ w.extractLsb' 0 1 = 0#1 := by
  obtain ⟨-, hpo, hxo, -⟩ := patternX_at po xo
  exact ⟨(field_of_mask 26 6 (by decide) h).trans hpo, (field_of_mask 1 10 (by decide) h).trans hxo,
    (field_of_mask 0 1 (by decide) h).trans BitVec.extractLsb'_append_eq_right⟩

/-! ### The encoder lays the fields out in order (R67) -/

theorem encodeD_eq_dForm (po : BitVec 6) (rt ra : Reg) (d : BitVec 16) :
    encodeD (patternD po) rt ra d = dForm po rt ra d := by
  have h := dForm_fields (encodeD (patternD po) rt ra d)
  obtain ⟨hrt, hra, hd⟩ := encodeD_fields po rt ra d
  rwa [primary_of_maskD (encodeD_mask po rt ra d), hrt, hra, hd, eq_comm] at h

theorem encodeDS_eq_dsForm (po : BitVec 6) (xo : BitVec 2) (rt ra : Reg) (ds : BitVec 14) :
    encodeDS (patternDS po xo) rt ra ds = dsForm po rt ra ds xo := by
  have h := dsForm_fields (encodeDS (patternDS po xo) rt ra ds)
  obtain ⟨hrt, hra, hds⟩ := encodeDS_fields po xo rt ra ds
  obtain ⟨hpo, hxo⟩ := opcodes_of_maskDS (encodeDS_mask po xo rt ra ds)
  rwa [hpo, hxo, hrt, hra, hds, eq_comm] at h

theorem encodeX_eq_xForm (po : BitVec 6) (xo : BitVec 10) (rt ra rb : Reg) :
    encodeX (patternX po xo) rt ra rb = xForm po rt ra rb xo := by
  obtain ⟨hpo, hxo, h0⟩ := opcodes_of_maskX (encodeX_mask po xo rt ra rb)
  have h := xForm_fields h0
  obtain ⟨hrt, hra, hrb⟩ := encodeX_fields po xo rt ra rb
  rwa [hpo, hxo, hrt, hra, hrb, eq_comm] at h

/-! ### Encoding the fields that a row reads -/

theorem encodeD_of_mask {w : Insn} {po : BitVec 6} (h : w &&& maskD = patternD po) :
    encodeD (patternD po) (fieldRT w) (fieldRA w) (fieldD w) = w := by
  rw [encodeD_eq_dForm, ← primary_of_maskD h, dForm_fields]

theorem encodeDS_of_mask {w : Insn} {po : BitVec 6} {xo : BitVec 2} (h : w &&& maskDS = patternDS po xo) :
    encodeDS (patternDS po xo) (fieldRT w) (fieldRA w) (fieldDS w) = w := by
  obtain ⟨rfl, rfl⟩ := opcodes_of_maskDS h
  rw [encodeDS_eq_dsForm, dsForm_fields]

theorem encodeX_of_mask {w : Insn} {po : BitVec 6} {xo : BitVec 10} (h : w &&& maskX = patternX po xo) :
    encodeX (patternX po xo) (fieldRT w) (fieldRA w) (fieldRB w) = w := by
  obtain ⟨rfl, rfl, h0⟩ := opcodes_of_maskX h
  rw [encodeX_eq_xForm, xForm_fields h0]

/-! ### What a row is (R59, R67) -/

/-- The rows of an allocation, form by form: what a row makes of operands has the row's mnemonic, and its word is the row's
pattern with those operands. -/
inductive RowOf (ops : Opcodes) : OpcodeRow → Prop where
  | d {m : String} {po : BitVec 6} {make : Reg → Reg → BitVec 16 → Instr}
      (name : ∀ rt ra d, (make rt ra d).mnemonic = m)
      (word : ∀ rt ra d, encode ops (make rt ra d) = some (encodeD (patternD po) rt ra d)) : RowOf ops (rowD m po make)
  | ds {m : String} {po : BitVec 6} {xo : BitVec 2} {make : Reg → Reg → BitVec 14 → Instr}
      (name : ∀ rt ra ds, (make rt ra ds).mnemonic = m)
      (word : ∀ rt ra ds, encode ops (make rt ra ds) = some (encodeDS (patternDS po xo) rt ra ds)) :
      RowOf ops (rowDS m po xo make)
  | x {m : String} {po : BitVec 6} {xo : BitVec 10} {make : Reg → Reg → Reg → Instr}
      (name : ∀ rt ra rb, (make rt ra rb).mnemonic = m)
      (word : ∀ rt ra rb, encode ops (make rt ra rb) = some (encodeX (patternX po xo) rt ra rb)) :
      RowOf ops (rowX m po xo make)

theorem rowOf_of_mem {ops : Opcodes} {r : OpcodeRow} (hr : r ∈ opcodeTable ops) : RowOf ops r := by
  simp only [opcodeTable, opcodeRowsImmediate, opcodeRowsIndexed, List.mem_append, List.mem_cons, List.not_mem_nil,
    or_false] at hr
  rcases hr with (rfl | rfl | rfl | rfl | rfl | rfl | rfl | rfl | rfl | rfl | rfl | rfl | rfl) |
    (rfl | rfl | rfl | rfl | rfl | rfl | rfl | rfl | rfl | rfl | rfl | rfl | rfl | rfl)
  iterate 11 exact .d (fun _ _ _ => rfl) fun _ _ _ => rfl
  iterate 2 exact .ds (fun _ _ _ => rfl) fun _ _ _ => rfl
  iterate 14 exact .x (fun _ _ _ => rfl) fun _ _ _ => rfl

theorem mnemonic_read {ops : Opcodes} {r : OpcodeRow} (hr : r ∈ opcodeTable ops) (w : Insn) :
    (r.read w).mnemonic = r.mnemonic := by
  cases rowOf_of_mem hr with
  | d name => exact name _ _ _
  | ds name => exact name _ _ _
  | x name => exact name _ _ _

/-- What a row reads from a word it accepts encodes to that word. -/
theorem encode_read_of_accepts {ops : Opcodes} {r : OpcodeRow} {w : Insn} (hr : r ∈ opcodeTable ops)
    (hw : r.accepts w = true) : encode ops (r.read w) = some w := by
  rw [OpcodeRow.accepts, beq_iff_eq] at hw
  cases rowOf_of_mem hr with
  | d _ word => exact (word _ _ _).trans (congrArg some (encodeD_of_mask hw))
  | ds _ word => exact (word _ _ _).trans (congrArg some (encodeDS_of_mask hw))
  | x _ word => exact (word _ _ _).trans (congrArg some (encodeX_of_mask hw))

/-- The instructions of a row have a word, and the shifted mnemonics have none (R115). -/
theorem encode_eq (ops : Opcodes) (i : Instr) : encode ops i = if i.encodable then some (wordOf ops i) else none := by
  cases i <;> rfl

theorem encodable_of_encode {ops : Opcodes} {i : Instr} {w : Insn} (h : encode ops i = some w) : i.encodable = true := by
  rw [encode_eq] at h
  split at h
  · assumption
  · cases h

theorem encode_eq_wordOf {ops : Opcodes} {i : Instr} (h : i.encodable = true) : encode ops i = some (wordOf ops i) := by
  rw [encode_eq, if_pos h]

/-! ### Decoding the word of an instruction (R67 (1), (2)) -/

section Decodes

variable {ops : Opcodes} (h : ops.wf)
include h

theorem decode_encodeD {po : BitVec 6} {make : Reg → Reg → BitVec 16 → Instr} {rt ra : Reg} {d : BitVec 16}
    (hr : rowD (make rt ra d).mnemonic po make ∈ opcodeTable ops) :
    decode ops (encodeD (patternD po) rt ra d) = .ok (make rt ra d) := by
  obtain ⟨hrt, hra, hd⟩ := encodeD_fields po rt ra d
  rw [decode_of_accepts h hr (beq_iff_eq.2 (encodeD_mask po rt ra d))]
  simp only [rowD, hrt, hra, hd]

theorem decode_encodeDS {po : BitVec 6} {xo : BitVec 2} {make : Reg → Reg → BitVec 14 → Instr} {rt ra : Reg}
    {ds : BitVec 14} (hr : rowDS (make rt ra ds).mnemonic po xo make ∈ opcodeTable ops) :
    decode ops (encodeDS (patternDS po xo) rt ra ds) = .ok (make rt ra ds) := by
  obtain ⟨hrt, hra, hds⟩ := encodeDS_fields po xo rt ra ds
  rw [decode_of_accepts h hr (beq_iff_eq.2 (encodeDS_mask po xo rt ra ds))]
  simp only [rowDS, hrt, hra, hds]

theorem decode_encodeX {po : BitVec 6} {xo : BitVec 10} {make : Reg → Reg → Reg → Instr} {rt ra rb : Reg}
    (hr : rowX (make rt ra rb).mnemonic po xo make ∈ opcodeTable ops) :
    decode ops (encodeX (patternX po xo) rt ra rb) = .ok (make rt ra rb) := by
  obtain ⟨hrt, hra, hrb⟩ := encodeX_fields po xo rt ra rb
  rw [decode_of_accepts h hr (beq_iff_eq.2 (encodeX_mask po xo rt ra rb))]
  simp only [rowX, hrt, hra, hrb]

/-- Under an allocation as R58 has it an instruction's word decodes to the instruction, form by form. -/
theorem decode_of_encode {i : Instr} {w : Insn} (hw : encode ops i = some w) : decode ops w = .ok i := by
  cases i
  case lwzup | lbzup | stwup | stbup | lhzup | lhaup | sthup | lfsup | lfdup | stfsup | stfdup =>
    cases hw
    exact decode_encodeD h (by simp [opcodeTable, opcodeRowsImmediate, Instr.mnemonic])
  case ldup | stdup =>
    cases hw
    exact decode_encodeDS h (by simp [opcodeTable, opcodeRowsImmediate, Instr.mnemonic])
  case ldupx | lwzupx | lbzupx | stdupx | stwupx | stbupx | lhzupx | lwaupx | lhaupx | sthupx | lfsupx | lfdupx | stfsupx |
      stfdupx =>
    cases hw
    exact decode_encodeX h (by simp [opcodeTable, opcodeRowsIndexed, Instr.mnemonic])
  all_goals cases hw

end Decodes

/-! ### Rows and mnemonics (R59) -/

/-- No two rows have one mnemonic, whatever the numbers. -/
theorem opcodeTable_mnemonic_nodup (ops : Opcodes) : ((opcodeTable ops).map OpcodeRow.mnemonic).Nodup := by
  simp [opcodeTable, opcodeRowsImmediate, opcodeRowsIndexed, rowD, rowDS, rowX]

/-- R59: "an instruction word w is the instruction iff w AND mask = match". -/
theorem accepts_iff_decode {ops : Opcodes} {r : OpcodeRow} (h : ops.wf) (hr : r ∈ opcodeTable ops) (w : Insn) :
    r.accepts w = true ↔ ∃ i, decode ops w = .ok i ∧ i.mnemonic = r.mnemonic := by
  constructor
  · exact fun hw => ⟨r.read w, decode_of_accepts h hr hw, mnemonic_read hr w⟩
  · rintro ⟨i, hi, hm⟩
    obtain ⟨q, hq, hw, rfl⟩ := decode_ok hi
    obtain rfl : q = r :=
      List.inj_on_of_nodup_map (opcodeTable_mnemonic_nodup ops) hq hr ((mnemonic_read hq w).symm.trans hm)
    exact hw

/-- The printed rows are the rows of P0. -/
theorem mem_tableP0_iff {row : String × Insn × Insn} :
    row ∈ tableP0 ↔ ∃ r ∈ opcodeTable Opcodes.p0, (r.mnemonic, r.pattern, r.mask) = row := by
  rw [show tableP0 = (opcodeTable Opcodes.p0).map fun r => (r.mnemonic, r.pattern, r.mask) by decide, List.mem_map]

/-! ### Words that no row accepts (R62, R63) -/

theorem decode_unrecognised_iff {ops : Opcodes} {w : Insn} :
    decode ops w = .error (.unrecognised w) ↔ ∀ r ∈ opcodeTable ops, w &&& r.mask ≠ r.pattern := by
  unfold decode
  split
  · rename_i r hr
    have hw : r.accepts w = true := List.find?_some (p := fun r : OpcodeRow => r.accepts w) hr
    exact iff_of_false nofun fun hno => hno r (List.mem_of_find?_eq_some hr) (beq_iff_eq.1 hw)
  · rename_i hnone
    exact iff_of_true rfl fun r hr he => List.find?_eq_none.1 hnone r hr (beq_iff_eq.2 he)

theorem indexed_pattern (ops : Opcodes) : ∀ r ∈ opcodeRowsIndexed ops, ∃ xo, r.pattern = patternX ops.indexed xo := by
  simp [opcodeRowsIndexed, rowX]

/-- A word of the shared primary opcode with insn[0] = 1: an immediate row has another primary opcode, and an indexed row fixes
insn[0] to 0. -/
theorem decode_of_reserved_bit {ops : Opcodes} {w : Insn} (h : ops.wf) (hpo : w.extractLsb' 26 6 = ops.indexed)
    (h0 : w.getLsbD 0 = true) : decode ops w = .error (.unrecognised w) := by
  obtain ⟨-, hshared, -⟩ := h
  refine decode_unrecognised_iff.2 fun r hr he => ?_
  rcases List.mem_append.1 hr with hr | hr
  · have hrow := field_of_mask 26 6 (immediate_mask ops r hr) he
    refine hshared ?_
    rw [← immediate_primary, ← hpo, hrow]
    exact List.mem_map_of_mem hr
  · obtain ⟨xo, hp⟩ := indexed_pattern ops r hr
    rw [(indexed_mask ops r hr).1, hp] at he
    obtain ⟨-, -, hbit⟩ := opcodes_of_maskX he
    have h1 : (w.extractLsb' 0 1).getLsbD 0 = true := by rw [BitVec.getLsbD_extractLsb']; exact h0
    rw [hbit] at h1
    cases h1

end Sys2Proof

namespace Sys2Proof.Machine

theorem step_of_unrecognised {s : State} {w : Insn} (hrec : s.faultRecord = []) (hfinal : s.isFinal = false)
    (hfetch : s.fetch = some w) (hw : decode s.launch.opcodes w = .error (.unrecognised w)) :
    step s = .refused (.unrecognised w) := by
  simp [step, State.current, hrec, hfinal, hfetch, hw, raise]

/-! ### Invalid forms (R61, R141) -/

section InvalidForm

variable {s : State} {a : Addr} {n : Nat} {x : Stop} {ra : Reg} {inc : Word} {insn w : Insn} {i : Instr}

theorem fixedLoad_of_invalid {ext : BitVec (8 * n) → Word} {rt : Reg} (h : ra = 0 ∨ ra = rt) :
    fixedLoad insn n ext rt ra inc s = .fault (.invalidForm insn) := if_pos h

theorem fixedStore_of_invalid {rs : Reg} (h : ra = 0) : fixedStore insn n rs ra inc s = .fault (.invalidForm insn) :=
  if_pos h

theorem fpLoad_of_invalid {conv : BitVec (8 * n) → Word} {frt : Reg} (hfp : s.launch.admitFp = true) (h : ra = 0) :
    fpLoad i n conv frt ra inc s = .fault (.invalidForm (wordOf s.launch.opcodes i)) := by
  simp [fpLoad, hfp, h, raise]

theorem fpStore_of_invalid {conv : Word → State → BitVec (8 * n) × State} {frs : Reg} (hfp : s.launch.admitFp = true)
    (h : ra = 0) : fpStore i n conv frs ra inc s = .fault (.invalidForm (wordOf s.launch.opcodes i)) := by
  simp [fpStore, hfp, h, raise]

/-- An invalid form raises InvalidForm with the instruction's word, template by template. -/
theorem exec_of_invalid (hfp : i.isFp = true → s.launch.admitFp = true) (hform : i.formOk = false) :
    exec i s = .fault (.invalidForm (wordOf s.launch.opcodes i)) := by
  cases i
  case lbzup | lbzupx | lhzup | lhzupx | lhaup | lhaupx | lwzup | lwzupx | lwaupx | ldup | ldupx =>
    exact fixedLoad_of_invalid (by simpa [Instr.formOk, or_iff_not_imp_left] using hform)
  case stbup | stbupx | sthup | sthupx | stwup | stwupx | stdup | stdupx =>
    exact fixedStore_of_invalid (by simpa [Instr.formOk] using hform)
  case lfdup | lfsup | lfdupx | lfsupx => exact fpLoad_of_invalid (hfp rfl) (by simpa [Instr.formOk] using hform)
  case stfdup | stfsup | stfdupx | stfsupx => exact fpStore_of_invalid (hfp rfl) (by simpa [Instr.formOk] using hform)
  all_goals cases hform

theorem readBytes_error {f : Fault} {k count : Nat} (h : readBytes s a k count = .error f) : ∃ b, f = .unwritten b := by
  induction count generalizing k with
  | zero => cases h
  | succ c ih =>
    unfold readBytes at h
    split at h
    · cases h; exact ⟨_, rfl⟩
    · split at h
      · cases h; exact ih ‹_›
      · cases h

/-- The three ways MemRead raises (R32). -/
theorem memRead_error (h : memRead s a n = .error x) :
    x = .fault (.alignmentFault a) ∨ x = .fault (.storageFault a) ∨ ∃ b, x = .fault (.unwritten b) := by
  unfold memRead at h
  split at h
  · cases h; exact .inl rfl
  · split at h
    · cases h; exact .inr (.inl rfl)
    · split at h
      · cases h
        obtain ⟨b, rfl⟩ := readBytes_error ‹_›
        exact .inr (.inr ⟨b, rfl⟩)
      · cases h

/-- The three ways MemWrite raises (R33). -/
theorem memWrite_error {v : BitVec (8 * n)} (h : memWrite s a n v = .error x) :
    x = .fault (.alignmentFault a) ∨ x = .fault (.storageFault a) ∨ x = .refusal .storeToText := by
  unfold memWrite at h
  split at h
  · cases h; exact .inl rfl
  · split at h
    · cases h; exact .inr (.inl rfl)
    · split at h
      · cases h; exact .inr (.inr rfl)
      · cases h

theorem raise_memRead_error_ne_invalidForm (h : memRead s a n = .error x) : raise x ≠ .fault (.invalidForm w) := by
  obtain rfl | rfl | ⟨b, rfl⟩ := memRead_error h <;> nofun

theorem raise_memWrite_error_ne_invalidForm {v : BitVec (8 * n)} (h : memWrite s a n v = .error x) :
    raise x ≠ .fault (.invalidForm w) := by
  obtain rfl | rfl | rfl := memWrite_error h <;> nofun

theorem fixedLoad_ne_invalidForm {ext : BitVec (8 * n) → Word} {rt : Reg} (h0 : ra ≠ 0) (hrt : ra ≠ rt) :
    fixedLoad insn n ext rt ra inc s ≠ .fault (.invalidForm w) := by
  rw [fixedLoad, if_neg (not_or.2 ⟨h0, hrt⟩)]
  split
  · exact raise_memRead_error_ne_invalidForm ‹_›
  · nofun

theorem fixedStore_ne_invalidForm {rs : Reg} (h0 : ra ≠ 0) : fixedStore insn n rs ra inc s ≠ .fault (.invalidForm w) := by
  rw [fixedStore, if_neg h0]
  split
  · exact raise_memWrite_error_ne_invalidForm ‹_›
  · nofun

theorem fpLoad_ne_invalidForm {conv : BitVec (8 * n) → Word} {frt : Reg} (h0 : ra ≠ 0) :
    fpLoad i n conv frt ra inc s ≠ .fault (.invalidForm w) := by
  rw [fpLoad, if_neg h0]
  split
  · nofun
  · split
    · exact raise_memRead_error_ne_invalidForm ‹_›
    · nofun

theorem fpStore_ne_invalidForm {conv : Word → State → BitVec (8 * n) × State} {frs : Reg} (h0 : ra ≠ 0) :
    fpStore i n conv frs ra inc s ≠ .fault (.invalidForm w) := by
  rw [fpStore, if_neg h0]
  split
  · nofun
  · split
    · exact raise_memWrite_error_ne_invalidForm ‹_›
    · nofun

/-- A valid form never raises InvalidForm: no access does, and a refusal is none. -/
theorem exec_ne_invalidForm (hform : i.formOk = true) : exec i s ≠ .fault (.invalidForm w) := by
  cases i
  case lbzup | lbzupx | lhzup | lhzupx | lhaup | lhaupx | lwzup | lwzupx | lwaupx | ldup | ldupx =>
    obtain ⟨h0, hrt⟩ : _ ≠ _ ∧ _ ≠ _ := by simpa [Instr.formOk] using hform
    exact fixedLoad_ne_invalidForm h0 hrt
  case stbup | stbupx | sthup | sthupx | stwup | stwupx | stdup | stdupx =>
    exact fixedStore_ne_invalidForm (by simpa [Instr.formOk] using hform)
  case lfdup | lfsup | lfdupx | lfsupx => exact fpLoad_ne_invalidForm (by simpa [Instr.formOk] using hform)
  case stfdup | stfsup | stfdupx | stfsupx => exact fpStore_ne_invalidForm (by simpa [Instr.formOk] using hform)
  all_goals nofun

end InvalidForm

/-! ### Another allocation (R59)

MemRead, MemWrite and the conversions do not look at the allocation, so a template does the same under another, but that an
invalid form records the word that the other allocation gives. -/

/-- s under the allocation `ops`. -/
def State.withOpcodes (s : State) (ops : Opcodes) : State := { s with launch := { s.launch with opcodes := ops } }

/-- The outcome `o'` is `o` under the allocation `ops`: the same but for the allocation in a next state and the word that
InvalidForm carries. -/
inductive Renumbered (ops : Opcodes) :
    Host.Outcome State Fault Refusal → Host.Outcome State Fault Refusal → Prop where
  | next (t : State) : Renumbered ops (.next t) (.next (t.withOpcodes ops))
  | fault (f : Fault) : Renumbered ops (.fault f) (.fault f)
  | refused (r : Refusal) : Renumbered ops (.refused r) (.refused r)
  | invalidForm (w w' : Insn) : Renumbered ops (.fault (.invalidForm w)) (.fault (.invalidForm w'))

theorem Renumbered.outcomes {ops : Opcodes} {o o' : Host.Outcome State Fault Refusal} (h : Renumbered ops o o') :
    (∀ t, o = .next t → o' = .next (t.withOpcodes ops)) ∧ (∀ r, o = .refused r → o' = .refused r) ∧
      ∀ f, o = .fault f → o' = .fault f ∨ (∃ w, f = .invalidForm w) ∧ ∃ w', o' = .fault (.invalidForm w') := by
  cases h with
  | next t => exact ⟨fun u hu => by cases hu; rfl, nofun, nofun⟩
  | fault f => exact ⟨nofun, nofun, fun g hg => .inl hg⟩
  | refused r => exact ⟨nofun, fun q hq => hq, nofun⟩
  | invalidForm w w' => exact ⟨nofun, nofun, fun g hg => .inr ⟨⟨w, by cases hg; rfl⟩, w', rfl⟩⟩

section OtherOpcodes

variable (ops : Opcodes) (s : State) {n : Nat} {ra : Reg} {inc : Word} {insn insn' : Insn}

theorem renumbered_raise (x : Stop) : Renumbered ops (raise x) (raise x) := by
  cases x with
  | fault f => exact .fault f
  | refusal r => exact .refused r

theorem withOpcodes_readGpr (r : Reg) : (s.withOpcodes ops).readGpr r = s.readGpr r := rfl

theorem withOpcodes_readFpr (r : Reg) : (s.withOpcodes ops).readFpr r = s.readFpr r := rfl

theorem withOpcodes_admitFp : (s.withOpcodes ops).launch.admitFp = s.launch.admitFp := rfl

theorem readBytes_withOpcodes (a : Addr) (count : Nat) :
    ∀ k, readBytes (s.withOpcodes ops) a k count = readBytes s a k count := by
  induction count with
  | zero => exact fun _ => rfl
  | succ c ih =>
    intro k
    have hbyte : (s.withOpcodes ops).byte? = s.byte? := rfl
    simp only [readBytes, hbyte, ih]

theorem memRead_withOpcodes (a : Addr) (n : Nat) : memRead (s.withOpcodes ops) a n = memRead s a n := by
  simp only [memRead, readBytes_withOpcodes]; rfl

theorem memWrite_withOpcodes (a : Addr) (n : Nat) (v : BitVec (8 * n)) :
    memWrite (s.withOpcodes ops) a n v = (memWrite s a n v).map (State.withOpcodes · ops) := by
  have halign : (s.withOpcodes ops).misalignedFaults a n = s.misalignedFaults a n := rfl
  have hmap : (s.withOpcodes ops).mapped a n = s.mapped a n := rfl
  have htext : (s.withOpcodes ops).touchesText a n = s.touchesText a n := rfl
  unfold memWrite
  rw [halign, hmap, htext]
  split_ifs <;> rfl

theorem singleToStore_withOpcodes (d : Word) :
    singleToStore d (s.withOpcodes ops) = ((singleToStore d s).1, (singleToStore d s).2.withOpcodes ops) := by
  have hconv : doubleToSingle (s.withOpcodes ops).launch d = doubleToSingle s.launch d := rfl
  unfold singleToStore
  rw [hconv]
  split <;> rfl

theorem fixedLoad_withOpcodes {ext : BitVec (8 * n) → Word} {rt : Reg} :
    Renumbered ops (fixedLoad insn n ext rt ra inc s) (fixedLoad insn' n ext rt ra inc (s.withOpcodes ops)) := by
  unfold fixedLoad
  rw [withOpcodes_readGpr, memRead_withOpcodes]
  split
  · exact .invalidForm _ _
  · split
    · exact renumbered_raise ops _
    · exact .next _

theorem fixedStore_withOpcodes {rs : Reg} :
    Renumbered ops (fixedStore insn n rs ra inc s) (fixedStore insn' n rs ra inc (s.withOpcodes ops)) := by
  unfold fixedStore
  rw [withOpcodes_readGpr, withOpcodes_readGpr, memWrite_withOpcodes]
  split
  · exact .invalidForm _ _
  · cases memWrite s (s.readGpr ra) n (lowBytes n (s.readGpr rs)) with
    | error x => exact renumbered_raise ops x
    | ok t => exact .next _

theorem fpLoad_withOpcodes {i : Instr} {conv : BitVec (8 * n) → Word} {frt : Reg} :
    Renumbered ops (fpLoad i n conv frt ra inc s) (fpLoad i n conv frt ra inc (s.withOpcodes ops)) := by
  unfold fpLoad
  rw [withOpcodes_admitFp, withOpcodes_readGpr, memRead_withOpcodes]
  split
  · exact .refused _
  · split
    · exact .invalidForm _ _
    · split
      · exact renumbered_raise ops _
      · exact .next _

theorem fpStore_withOpcodes {i : Instr} {conv : Word → State → BitVec (8 * n) × State} {frs : Reg}
    (hconv : ∀ d, conv d (s.withOpcodes ops) = ((conv d s).1, (conv d s).2.withOpcodes ops)) :
    Renumbered ops (fpStore i n conv frs ra inc s) (fpStore i n conv frs ra inc (s.withOpcodes ops)) := by
  unfold fpStore
  rw [withOpcodes_admitFp, withOpcodes_readFpr, withOpcodes_readGpr, hconv, memWrite_withOpcodes]
  split
  · exact .refused _
  · split
    · exact .invalidForm _ _
    · cases memWrite (conv (s.readFpr frs) s).2 (s.readGpr ra) n (conv (s.readFpr frs) s).1 with
      | error x => exact renumbered_raise ops x
      | ok t => exact .next _

/-- Every instruction does the same under another allocation, template by template. -/
theorem exec_withOpcodes (i : Instr) : Renumbered ops (exec i s) (exec i (s.withOpcodes ops)) := by
  cases i
  case lbzup | lbzupx | lhzup | lhzupx | lhaup | lhaupx | lwzup | lwzupx | lwaupx | ldup | ldupx =>
    exact fixedLoad_withOpcodes ops s
  case stbup | stbupx | sthup | sthupx | stwup | stwupx | stdup | stdupx => exact fixedStore_withOpcodes ops s
  case lfdup | lfsup | lfdupx | lfsupx => exact fpLoad_withOpcodes ops s
  case stfdup | stfdupx => exact fpStore_withOpcodes ops s fun _ => rfl
  case stfsup | stfsupx => exact fpStore_withOpcodes ops s (singleToStore_withOpcodes ops s)
  all_goals exact .refused _

end OtherOpcodes

end Sys2Proof.Machine
end

section
/-! The statements of the family of spec/30_encoding.md, settled. -/

open Sys2Proof Sys2Proof.Machine Sys2Proof.Claims

namespace Sys2Proof.EncodingFamily

/-- Settles O1: an encodable instruction has a word, which its own row accepts and reads. -/
theorem decodeOfEncodeIsTheInstruction : Obligations.DecodeOfEncodeIsTheInstruction :=
  fun _ _ h henc => ⟨_, encode_eq_wordOf henc, decode_of_encode h (encode_eq_wordOf henc)⟩

/-- Settles O2: a row fixes the bits that its mask has and reads the others into its fields. -/
theorem encodeOfDecodeIsTheWord : Obligations.EncodeOfDecodeIsTheWord := by
  intro ops w i h
  obtain ⟨r, hr, hw, rfl⟩ := decode_ok h
  have henc := encode_read_of_accepts hr hw
  exact ⟨henc, encodable_of_encode henc⟩

/-- Settles O3: the rows of P0 are disjoint and differ in their mnemonics. -/
theorem wordDecodesAsItsTableRow : Obligations.WordDecodesAsItsTableRow := by
  intro row hrow w
  obtain ⟨r, hr, rfl⟩ := mem_tableP0_iff.1 hrow
  exact beq_iff_eq.symm.trans (accepts_iff_decode (by decide) hr w)

/-- Settles O4: the word laid out field by field is the encoding. -/
theorem fieldLayoutsDecode : Obligations.FieldLayoutsDecode := by
  intro ops rt ra rb d ds h
  simp only [← encodeD_eq_dForm, ← encodeDS_eq_dsForm, ← encodeX_eq_xForm]
  and_intros <;> exact decode_of_encode h rfl

/-- Settles O5, with `decode_unrecognised_iff` read over the printed rows. -/
theorem unlistedWordIsUnrecognised : Obligations.UnlistedWordIsUnrecognised := by
  refine ⟨fun w => ?_, fun _ _ => decode_of_reserved_bit, fun _ _ => step_of_unrecognised⟩
  rw [decode_unrecognised_iff]
  constructor
  · exact fun hno r hr => hno _ (mem_tableP0_iff.2 ⟨r, hr, rfl⟩)
  · intro hno row hrow
    obtain ⟨r, hr, rfl⟩ := mem_tableP0_iff.1 hrow
    exact hno r hr

/-- Settles O26, by `exec_of_invalid` and `exec_ne_invalidForm`. -/
theorem invalidFormRaises : Obligations.InvalidFormRaises :=
  fun _ _ henc hfp =>
    ⟨fun hform => ⟨_, encode_eq_wordOf henc, exec_of_invalid hfp hform⟩, fun hform _ => exec_ne_invalidForm hform⟩

/-- Settles O59: the outcome under the other allocation is `Renumbered`. -/
theorem opcodeNumbersDoNotMatter : Obligations.OpcodeNumbersDoNotMatter :=
  fun i s ops => (exec_withOpcodes ops s i).outcomes

end Sys2Proof.EncodingFamily
end

section
/-! The laws of the fixed-point loads (spec/40_fixed_load_postupdate.md): the extensions written out bit by bit, the byte that a
byte load reads, the one next state of a load whose access is readable, and two runs of a template that differ in the increment. -/

open Sys2Proof.Claims

namespace Sys2Proof.Machine

/-! ### The extensions (R12, R70) -/

theorem zext_byte (m : BitVec 8) : zext m = 0#56 ++ m := BitVec.setWidth_eq_append (by decide)

theorem zext_halfword (m : BitVec 16) : zext m = 0#48 ++ m := BitVec.setWidth_eq_append (by decide)

theorem zext_word (m : BitVec 32) : zext m = 0#32 ++ m := BitVec.setWidth_eq_append (by decide)

theorem zext_doubleword (m : BitVec 64) : zext m = m := BitVec.setWidth_eq m

theorem sext_halfword (m : BitVec 16) : sext m = (if m.getLsbD 15 then 0xFFFFFFFFFFFF#48 else 0#48) ++ m :=
  BitVec.signExtend_eq_append_of_le (by decide)

theorem sext_word (m : BitVec 32) : sext m = (if m.getLsbD 31 then 0xFFFFFFFF#32 else 0#32) ++ m :=
  BitVec.signExtend_eq_append_of_le (by decide)

/-! ### A load whose access is readable (R32, R70) -/

theorem byteAddr_zero (a : Addr) : byteAddr a 0 = a.toNat := Nat.mod_eq_of_lt a.isLt

/-- A byte access reads the byte that memory holds at its address. -/
theorem read?_of_memRead_one {s : State} {a : Addr} {m : BitVec (8 * 1)} (h : memRead s a 1 = .ok m) :
    Memory.read? s.mem a.toNat = some m := by
  obtain ⟨hread, -⟩ := byte?_some (byte?_of_memRead h Nat.one_pos)
  rwa [byteAddr_zero, byteOf_one] at hread

/-- In a valid form with a readable access MemRead answers a value, and the template completes with its extension in RT, whatever
the increment. `ext_eq` writes the extension out. -/
theorem fixedLoad_of_readable {s : State} {n : Nat} {ext v : BitVec (8 * n) → Word} {rt ra : Reg}
    (ext_eq : ∀ m, ext m = v m) (h0 : ra ≠ 0) (hrt : ra ≠ rt) (hread : Readable s (s.gpr.get ra) n) :
    ∃ m, memRead s (s.gpr.get ra) n = .ok m ∧
      ∀ insn inc, fixedLoad insn n ext rt ra inc s = .next (afterLoad s rt ra (v m) inc) := by
  obtain ⟨m, hm⟩ := memRead_of_readable hread
  exact ⟨m, hm, fun _ _ => ext_eq m ▸ fixedLoad_of_memRead h0 hrt hm⟩

/-- What the immediate and the indexed form of a load do, with their words and increments: both are invalid where RA = 0 or
RA = RT, and else both load the one value that a readable access holds. -/
theorem fixedLoad_forms {s : State} {n : Nat} {ext v : BitVec (8 * n) → Word} {rt ra : Reg} {insn insn' : Insn}
    {inc inc' : Word} (ext_eq : ∀ m, ext m = v m) :
    (ra = 0 ∨ ra = rt →
      (∃ w, fixedLoad insn n ext rt ra inc s = .fault (.invalidForm w)) ∧
        ∃ w, fixedLoad insn' n ext rt ra inc' s = .fault (.invalidForm w)) ∧
    (ra ≠ 0 → ra ≠ rt → Readable s (s.gpr.get ra) n → ∃ m, memRead s (s.gpr.get ra) n = .ok m ∧
      fixedLoad insn n ext rt ra inc s = .next (afterLoad s rt ra (v m) inc) ∧
      fixedLoad insn' n ext rt ra inc' s = .next (afterLoad s rt ra (v m) inc')) := by
  refine ⟨fun h => ⟨⟨_, fixedLoad_of_invalid h⟩, _, fixedLoad_of_invalid h⟩, fun h0 hrt hread => ?_⟩
  obtain ⟨m, hm, hnext⟩ := fixedLoad_of_readable ext_eq h0 hrt hread
  exact ⟨m, hm, hnext _ _, hnext _ _⟩

/-! ### Two increments (R70, R85, R100)

The loaded value and the address of an access do not depend on the increment, so two runs of a template from one state that both
complete differ in RA alone. -/

/-- Memory, the floating-point registers, pc and every general register but RA are the same in t and u. -/
def AgreeButRA (ra : Reg) (t u : State) : Prop :=
  t.mem = u.mem ∧ t.fpr = u.fpr ∧ t.pc = u.pc ∧ ∀ q, q ≠ ra → t.gpr.get q = u.gpr.get q

theorem agreeButRA_writeGpr (s : State) (ra : Reg) (v w : Word) :
    AgreeButRA ra (s.writeGpr ra v).advancePc (s.writeGpr ra w).advancePc :=
  ⟨rfl, rfl, rfl, fun _ hq =>
    (readGpr_writeGpr_ne s ra _ v hq.symm).trans (readGpr_writeGpr_ne s ra _ w hq.symm).symm⟩

section TwoIncrements

variable {s t u : State} {n : Nat} {ra : Reg} {inc inc' : Word}

theorem fixedLoad_agreeButRA {insn insn' : Insn} {ext : BitVec (8 * n) → Word} {rt : Reg}
    (ht : fixedLoad insn n ext rt ra inc s = .next t) (hu : fixedLoad insn' n ext rt ra inc' s = .next u) :
    AgreeButRA ra t u := by
  obtain ⟨-, -, m, hm, rfl⟩ := fixedLoad_next ht
  obtain ⟨-, -, m', hm', rfl⟩ := fixedLoad_next hu
  obtain rfl : m = m' := Except.ok.inj (hm.symm.trans hm')
  exact agreeButRA_writeGpr _ _ _ _

theorem fixedStore_agreeButRA {insn insn' : Insn} {rs : Reg}
    (ht : fixedStore insn n rs ra inc s = .next t) (hu : fixedStore insn' n rs ra inc' s = .next u) :
    AgreeButRA ra t u := by
  obtain ⟨-, x, hx, rfl⟩ := fixedStore_next ht
  obtain ⟨-, y, hy, rfl⟩ := fixedStore_next hu
  obtain rfl : x = y := Except.ok.inj (hx.symm.trans hy)
  exact agreeButRA_writeGpr _ _ _ _

theorem fpLoad_agreeButRA {i j : Instr} {conv : BitVec (8 * n) → Word} {frt : Reg}
    (ht : fpLoad i n conv frt ra inc s = .next t) (hu : fpLoad j n conv frt ra inc' s = .next u) :
    AgreeButRA ra t u := by
  obtain ⟨-, -, m, hm, rfl⟩ := fpLoad_next ht
  obtain ⟨-, -, m', hm', rfl⟩ := fpLoad_next hu
  obtain rfl : m = m' := Except.ok.inj (hm.symm.trans hm')
  exact agreeButRA_writeGpr _ _ _ _

theorem fpStore_agreeButRA {i j : Instr} {conv : Word → State → BitVec (8 * n) × State} {frs : Reg}
    (ht : fpStore i n conv frs ra inc s = .next t) (hu : fpStore j n conv frs ra inc' s = .next u) :
    AgreeButRA ra t u := by
  obtain ⟨-, -, x, hx, rfl⟩ := fpStore_next ht
  obtain ⟨-, -, y, hy, rfl⟩ := fpStore_next hu
  obtain rfl : x = y := Except.ok.inj (hx.symm.trans hy)
  exact agreeButRA_writeGpr _ _ _ _

end TwoIncrements

end Sys2Proof.Machine
end

section
/-! The statements of the family of spec/40_fixed_load_postupdate.md, settled. -/

open Sys2Proof Sys2Proof.Machine

namespace Sys2Proof.FixedLoadFamily

/-- Settles O32: a byte access reads the byte memory holds. -/
theorem loadByteAndZero : Obligations.LoadByteAndZero := by
  intro s rt ra rb d
  refine ⟨fun h => ⟨⟨_, fixedLoad_of_invalid h⟩, _, fixedLoad_of_invalid h⟩, fun h0 hrt hread => ?_⟩
  obtain ⟨m, hm, hnext⟩ := fixedLoad_of_readable zext_byte h0 hrt hread
  exact ⟨m, read?_of_memRead_one hm, hnext _ _, hnext _ _⟩

/-- Settles O33, with the zero extension of a halfword written out. -/
theorem loadHalfwordAndZero : Obligations.LoadHalfwordAndZero :=
  fun _ _ _ _ _ => fixedLoad_forms zext_halfword

/-- Settles O34, with the sign extension of a halfword written out. -/
theorem loadHalfwordAlgebraic : Obligations.LoadHalfwordAlgebraic :=
  fun _ _ _ _ _ => fixedLoad_forms sext_halfword

/-- Settles O35, with the zero extension of a word written out. -/
theorem loadWordAndZero : Obligations.LoadWordAndZero :=
  fun _ _ _ _ _ => fixedLoad_forms zext_word

/-- Settles O36, with the sign extension of a word written out. -/
theorem loadWordAlgebraic : Obligations.LoadWordAlgebraic := by
  intro s rt ra rb
  refine ⟨fun h => ⟨_, fixedLoad_of_invalid h⟩, fun h0 hrt hread => ?_⟩
  obtain ⟨m, hm, hnext⟩ := fixedLoad_of_readable sext_word h0 hrt hread
  exact ⟨m, hm, hnext _ _⟩

/-- Settles O37: a doubleword fills RT. -/
theorem loadDoubleword : Obligations.LoadDoubleword :=
  fun _ _ _ _ _ => fixedLoad_forms zext_doubleword

/-- Settles O58, template by template. -/
theorem accessIndependentOfDisplacement : Obligations.AccessIndependentOfDisplacement := by
  intro s t u r ra d d' make hmake ht hu
  simp only [List.mem_cons, List.not_mem_nil, or_false] at hmake
  rcases hmake with rfl | rfl | rfl | rfl | rfl | rfl | rfl | rfl | rfl | rfl | rfl
  iterate 4 exact fixedLoad_agreeButRA ht hu
  iterate 3 exact fixedStore_agreeButRA ht hu
  iterate 2 exact fpLoad_agreeButRA ht hu
  iterate 2 exact fpStore_agreeButRA ht hu

end Sys2Proof.FixedLoadFamily
end

section
/-! The laws of the fixed-point stores (spec/41_fixed_store_postupdate.md): the memory a writable MemWrite leaves, and the one
next state of a store whose access is writable. -/

open Sys2Proof.Claims

namespace Sys2Proof.Machine

/-! ### A store whose access is writable (R33, R85) -/

section Writable

variable {s : State} {n : Nat}

/-- A writable MemWrite answers s with a memory that holds the value at the access and is as before elsewhere. That the access
is no longer than the address space keeps its bytes apart. -/
theorem memWrite_of_writable {a : Addr} (v : BitVec (8 * n)) (hn : n ≤ 2 ^ 64) (hwr : Writable s a n) :
    ∃ mem, Stored s mem a n v ∧ memWrite s a n v = .ok { s with mem := mem } := by
  have hok := (memWrite_eq_ok_iff (v := v)).2 ⟨hwr, rfl⟩
  exact ⟨_, ⟨fun _ hk => memWrite_read?_inside hok hn hk, fun _ hout => memWrite_read?_outside hok hout⟩, hok⟩

theorem lowBytes_eight (v : Word) : lowBytes 8 v = v := BitVec.extractLsb'_eq_self

/-- What the immediate and the indexed form of a store do, with their words and increments, in a valid form with a writable
access: both leave one memory, with the low bytes of RS at the old RA. `low_eq` writes these bytes out. -/
theorem fixedStore_forms {rs ra : Reg} {insn insn' : Insn} {inc inc' : Word} {v : BitVec (8 * n)} (hn : n ≤ 2 ^ 64)
    (low_eq : lowBytes n (s.gpr.get rs) = v) (h0 : ra ≠ 0) (hwr : Writable s (s.gpr.get ra) n) :
    ∃ mem, Stored s mem (s.gpr.get ra) n v ∧
      fixedStore insn n rs ra inc s = .next (afterStore s mem ra inc) ∧
      fixedStore insn' n rs ra inc' s = .next (afterStore s mem ra inc') := by
  subst low_eq
  obtain ⟨mem, hstored, hok⟩ := memWrite_of_writable _ hn hwr
  exact ⟨mem, hstored, fixedStore_of_memWrite h0 hok, fixedStore_of_memWrite h0 hok⟩

end Writable

end Sys2Proof.Machine
end

section
/-! The statements of the family of spec/41_fixed_store_postupdate.md, settled. -/

open Sys2Proof Sys2Proof.Machine

namespace Sys2Proof.FixedStoreFamily

/-- Settles O38: the low byte of RS is `lowBytes 1`. -/
theorem storeByte : Obligations.StoreByte :=
  fun _ _ _ _ _ => fixedStore_forms (by norm_num) rfl

/-- Settles O39: the low halfword of RS is `lowBytes 2`. -/
theorem storeHalfword : Obligations.StoreHalfword :=
  fun _ _ _ _ _ => fixedStore_forms (by norm_num) rfl

/-- Settles O40: the low word of RS is `lowBytes 4`. -/
theorem storeWord : Obligations.StoreWord :=
  fun _ _ _ _ _ => fixedStore_forms (by norm_num) rfl

/-- Settles O41: a doubleword store takes all of RS. -/
theorem storeDoubleword : Obligations.StoreDoubleword :=
  fun _ _ _ _ _ => fixedStore_forms (by norm_num) (lowBytes_eight _)

end Sys2Proof.FixedStoreFamily
end

section
/-! The laws of the floating-point loads and stores (spec/42_fp_loadstore_postupdate.md): the conversions field by field, what
narrowing makes of a widened single, and the one next state of an access that completes. -/

open Sys2Proof.Claims

namespace Sys2Proof.Machine

section Conversions

variable (s : BitVec 1)

/-! ### FpSingleToDouble, case by case (R101) -/

section Single

theorem single_fields (e : BitVec 8) (f : BitVec 23) :
    BitVec.extractLsb' (n := 32) 31 1 (s ++ e ++ f) = s ∧ BitVec.extractLsb' (n := 32) 23 8 (s ++ e ++ f) = e ∧
      BitVec.extractLsb' (n := 32) 0 23 (s ++ e ++ f) = f :=
  ⟨(BitVec.extractLsb'_append_eq_of_le (by decide)).trans BitVec.extractLsb'_append_eq_left,
    (BitVec.extractLsb'_append_eq_of_le (by decide)).trans BitVec.extractLsb'_append_eq_right,
    BitVec.extractLsb'_append_eq_right⟩

/-- A single is its sign, exponent and fraction in order. -/
theorem exists_single_fields (w : BitVec 32) : ∃ (s : BitVec 1) (e : BitVec 8) (f : BitVec 23), w = s ++ e ++ f := by
  refine ⟨w.extractLsb' 31 1, w.extractLsb' 23 8, w.extractLsb' 0 23, ?_⟩
  rw [BitVec.extractLsb'_append_extractLsb'_eq_extractLsb' (show 31 = 23 + 8 from rfl),
    BitVec.extractLsb'_append_extractLsb'_eq_extractLsb' (show 23 = 0 + 23 from rfl), BitVec.extractLsb'_eq_self]

variable {e : BitVec 8} {f : BitVec 23} {k : Nat}

theorem fpSingleToDouble_normal (h0 : e ≠ 0#8) (h255 : e ≠ 255#8) :
    fpSingleToDouble (s ++ e ++ f) = s ++ BitVec.ofNat 11 (e.toNat + 896) ++ f ++ 0#29 := by
  obtain ⟨hs, he, hf⟩ := single_fields s e f
  have hbias : BitVec.ofNat 11 (e.toNat + 896) = e.setWidth 11 + 896#11 := by rw [BitVec.ofNat_add, BitVec.ofNat_toNat]
  simp only [fpSingleToDouble, hs, he, hf, if_neg h255, if_pos h0, hbias]

theorem fpSingleToDouble_zero : fpSingleToDouble (s ++ 0#8 ++ 0#23) = s ++ 0#63 := by
  obtain ⟨hs, he, hf⟩ := single_fields s 0#8 0#23
  simp [fpSingleToDouble, hs, he, hf]

theorem topBit_eq (hle : 2 ^ k ≤ f.toNat) (hlt : f.toNat < 2 ^ (k + 1)) : topBit f = k :=
  (Nat.log2_eq_iff ((Nat.two_pow_pos k).trans_le hle).ne').2 ⟨hle, hlt⟩

theorem fpSingleToDouble_denormal (hle : 2 ^ k ≤ f.toNat) (hlt : f.toNat < 2 ^ (k + 1)) :
    fpSingleToDouble (s ++ 0#8 ++ f) =
      s ++ BitVec.ofNat 11 (k + 874) ++ BitVec.ofNat 52 ((f.toNat - 2 ^ k) * 2 ^ (52 - k)) := by
  obtain ⟨hs, he, hf⟩ := single_fields s 0#8 f
  have hf0 : f ≠ 0#23 := by
    rintro rfl
    exact absurd hle (by simp)
  simp [fpSingleToDouble, hs, he, hf, hf0, topBit_eq hle hlt]

theorem fpSingleToDouble_infinityOrNaN : fpSingleToDouble (s ++ 255#8 ++ f) = s ++ 0x7FF#11 ++ f ++ 0#29 := by
  obtain ⟨hs, he, hf⟩ := single_fields s 255#8 f
  simp only [fpSingleToDouble, hs, he, hf, if_true]

end Single

/-! ### FpDoubleToSingle, case by case (R102) -/

section Double

theorem double_fields (e : BitVec 11) (f : BitVec 52) :
    BitVec.extractLsb' (n := 64) 63 1 (s ++ e ++ f) = s ∧ BitVec.extractLsb' (n := 64) 52 11 (s ++ e ++ f) = e ∧
      BitVec.extractLsb' (n := 64) 0 52 (s ++ e ++ f) = f :=
  ⟨(BitVec.extractLsb'_append_eq_of_le (by decide)).trans BitVec.extractLsb'_append_eq_left,
    (BitVec.extractLsb'_append_eq_of_le (by decide)).trans BitVec.extractLsb'_append_eq_right,
    BitVec.extractLsb'_append_eq_right⟩

variable {e : BitVec 11} {f : BitVec 52}

theorem double_magnitude : BitVec.extractLsb' (n := 64) 0 63 (s ++ e ++ f) = e ++ f := by
  have hassoc : (s ++ e ++ f : BitVec 64) = s ++ (e ++ f) := BitVec.append_assoc
  exact (congrArg _ hassoc).trans BitVec.extractLsb'_append_eq_right

/-- The two halves of the bit shuffle, cut at the fields of a double. -/
theorem shuffle_eq_append (d : Word) :
    d.extractLsb' 62 2 ++ d.extractLsb' 29 30 =
      d.extractLsb' 63 1 ++ d.extractLsb' 62 1 ++ d.extractLsb' 52 7 ++ d.extractLsb' 29 23 := by
  rw [BitVec.append_assoc (x₁ := d.extractLsb' 63 1 ++ d.extractLsb' 62 1), BitVec.cast_eq,
    BitVec.extractLsb'_append_extractLsb'_eq_extractLsb' (show 63 = 62 + 1 from rfl),
    BitVec.extractLsb'_append_extractLsb'_eq_extractLsb' (show 52 = 29 + 23 from rfl)]

/-- The bit shuffle drops the three exponent bits below the top one and the low 29 fraction bits. -/
theorem double_shuffle :
    BitVec.extractLsb' (n := 64) 62 2 (s ++ e ++ f) ++ BitVec.extractLsb' (n := 64) 29 30 (s ++ e ++ f) =
      s ++ e.extractLsb' 10 1 ++ e.extractLsb' 0 7 ++ f.extractLsb' 29 23 := by
  have htop : BitVec.extractLsb' (n := 64) 62 1 (s ++ e ++ f) = e.extractLsb' 10 1 :=
    (BitVec.extractLsb'_append_eq_of_le (by decide)).trans (BitVec.extractLsb'_append_eq_of_add_le (by decide))
  have hlow : BitVec.extractLsb' (n := 64) 52 7 (s ++ e ++ f) = e.extractLsb' 0 7 :=
    (BitVec.extractLsb'_append_eq_of_le (by decide)).trans (BitVec.extractLsb'_append_eq_of_add_le (by decide))
  have hfrac : BitVec.extractLsb' (n := 64) 29 23 (s ++ e ++ f) = f.extractLsb' 29 23 :=
    BitVec.extractLsb'_append_eq_of_add_le (by decide)
  rw [shuffle_eq_append, (double_fields s e f).1, htop, hlow, hfrac]

theorem fpDoubleToSingle_shuffle (he : 896 < e.toNat) :
    fpDoubleToSingle (s ++ e ++ f) =
      some (s ++ e.extractLsb' 10 1 ++ e.extractLsb' 0 7 ++ f.extractLsb' 29 23) := by
  have hshuffle : e.toNat > 896 ∨ e ++ f = 0#63 := .inl he
  simp only [fpDoubleToSingle, (double_fields s e f).2.1, double_magnitude, if_pos hshuffle, double_shuffle]

theorem fpDoubleToSingle_zero : fpDoubleToSingle (s ++ 0#63) = some (s ++ 0#31) := by
  revert s
  decide

theorem append_eq_zero_iff : e ++ f = 0#63 ↔ e = 0#11 ∧ f = 0#52 := by
  constructor
  · intro h
    have he : (e ++ f).extractLsb' 52 11 = e := BitVec.extractLsb'_append_eq_left
    have hf : (e ++ f).extractLsb' 0 52 = f := BitVec.extractLsb'_append_eq_right
    rw [h] at he hf
    exact ⟨he.symm, hf.symm⟩
  · rintro ⟨rfl, rfl⟩
    rfl

theorem fpDoubleToSingle_truncate (hlo : 874 ≤ e.toNat) (hhi : e.toNat ≤ 896) :
    fpDoubleToSingle (s ++ e ++ f) =
      some (s ++ 0#8 ++ BitVec.ofNat 23 ((2 ^ 52 + f.toNat) / 2 ^ (897 - e.toNat) / 2 ^ 29)) := by
  obtain ⟨hs, he, hf⟩ := double_fields s e f
  have hshuffle : ¬(e.toNat > 896 ∨ e ++ f = 0#63) := by
    rw [append_eq_zero_iff]
    rintro (h | ⟨rfl, -⟩)
    · omega
    · simp at hlo
  simp only [fpDoubleToSingle, hs, he, hf, double_magnitude, if_neg hshuffle, if_pos hlo, Nat.shiftRight_eq_div_pow]

theorem fpDoubleToSingle_undefined {d : Word} (he : (d.extractLsb' 52 11).toNat < 874) (hd : d.extractLsb' 0 63 ≠ 0#63) :
    fpDoubleToSingle d = none := by
  have hshuffle : ¬((d.extractLsb' 52 11).toNat > 896 ∨ d.extractLsb' 0 63 = 0#63) := by
    rintro (h | h)
    · omega
    · exact hd h
  simp only [fpDoubleToSingle, if_neg hshuffle, if_neg he.not_ge]

end Double

/-! ### Narrowing a widened single (R102) -/

section RoundTrip

variable {e : BitVec 8} {f : BitVec 23} {k : Nat}

/-- The rebiased exponent of a normal single is above 896, and the bits that the shuffle keeps of it are the old exponent. -/
theorem rebias_shuffle (e : BitVec 8) (h0 : e ≠ 0#8) (h255 : e ≠ 255#8) :
    896 < (BitVec.ofNat 11 (e.toNat + 896)).toNat ∧
      (BitVec.ofNat 11 (e.toNat + 896)).extractLsb' 10 1 ++ (BitVec.ofNat 11 (e.toNat + 896)).extractLsb' 0 7 = e := by
  revert e
  decide

/-- Narrowing by the shuffle undoes widening by 29 zeros where the shuffle gives the old exponent back. -/
theorem fpDoubleToSingle_of_shuffled_exponent {x : BitVec 11} (hx : 896 < x.toNat)
    (he : x.extractLsb' 10 1 ++ x.extractLsb' 0 7 = e) :
    fpDoubleToSingle (s ++ x ++ f ++ 0#29) = some (s ++ e ++ f) := by
  have hfrac : (s ++ x ++ f ++ 0#29 : BitVec 64) = s ++ x ++ (f ++ 0#29) := BitVec.append_assoc
  have hexp : s ++ x.extractLsb' 10 1 ++ x.extractLsb' 0 7 = s ++ e := he ▸ BitVec.append_assoc
  rw [hfrac, fpDoubleToSingle_shuffle s hx, BitVec.extractLsb'_append_eq_left, hexp]

/-- With its leading bit restored, the widened fraction of a denormal is `f * 2 ^ (52 - k)`, and the two shifts drop just the
zeros: 23 - k and 29 of them. -/
theorem truncate_widened_fraction {f : Nat} (hle : 2 ^ k ≤ f) (hk : k < 23) :
    (2 ^ 52 + (f - 2 ^ k) * 2 ^ (52 - k)) / 2 ^ (897 - (k + 874)) / 2 ^ 29 = f := by
  have hlead : (2 : Nat) ^ 52 = 2 ^ k * 2 ^ (52 - k) := by rw [← pow_add, Nat.add_sub_cancel' (by omega)]
  have hshift : (2 : Nat) ^ (52 - k) = 2 ^ (897 - (k + 874)) * 2 ^ 29 := by
    rw [← pow_add]
    congr 1
    omega
  rw [Nat.div_div_eq_div_mul, ← hshift, hlead, ← Nat.add_mul, Nat.add_sub_cancel' hle,
    Nat.mul_div_cancel _ (Nat.two_pow_pos _)]

theorem widened_fraction_lt {f : Nat} (hlt : f < 2 ^ (k + 1)) (hk : k < 23) : (f - 2 ^ k) * 2 ^ (52 - k) < 2 ^ 52 :=
  calc (f - 2 ^ k) * 2 ^ (52 - k) < 2 ^ k * 2 ^ (52 - k) :=
        Nat.mul_lt_mul_of_pos_right (by rw [pow_succ] at hlt; omega) (Nat.two_pow_pos _)
    _ = 2 ^ 52 := by rw [← pow_add, Nat.add_sub_cancel' (by omega)]

theorem fpDoubleToSingle_of_denormal (hf : f ≠ 0#23) :
    fpDoubleToSingle (fpSingleToDouble (s ++ 0#8 ++ f)) = some (s ++ 0#8 ++ f) := by
  have hf0 : f.toNat ≠ 0 := fun h => hf (BitVec.eq_of_toNat_eq h)
  obtain ⟨k, hk, hle, hlt⟩ : ∃ k < 23, 2 ^ k ≤ f.toNat ∧ f.toNat < 2 ^ (k + 1) :=
    ⟨_, (Nat.log2_lt hf0).2 f.isLt, Nat.log2_self_le hf0, Nat.lt_log2_self⟩
  have hexp : (BitVec.ofNat 11 (k + 874)).toNat = k + 874 := Nat.mod_eq_of_lt (by omega)
  have hfrac : (BitVec.ofNat 52 ((f.toNat - 2 ^ k) * 2 ^ (52 - k))).toNat = (f.toNat - 2 ^ k) * 2 ^ (52 - k) :=
    Nat.mod_eq_of_lt (widened_fraction_lt hlt hk)
  rw [fpSingleToDouble_denormal s hle hlt, fpDoubleToSingle_truncate s (by omega) (by omega), hexp, hfrac,
    truncate_widened_fraction hle hk, BitVec.ofNat_toNat, BitVec.setWidth_eq]

/-- Each case of R101 lands in the case of R102 that takes it back. -/
theorem fpDoubleToSingle_fpSingleToDouble (w : BitVec 32) : fpDoubleToSingle (fpSingleToDouble w) = some w := by
  obtain ⟨s, e, f, rfl⟩ := exists_single_fields w
  by_cases h0 : e = 0#8
  · subst h0
    by_cases hf : f = 0#23
    · subst hf
      rw [fpSingleToDouble_zero, fpDoubleToSingle_zero, BitVec.append_assoc, BitVec.cast_eq, BitVec.zero_append_zero]
    · exact fpDoubleToSingle_of_denormal s hf
  by_cases h255 : e = 255#8
  · subst h255
    rw [fpSingleToDouble_infinityOrNaN]
    exact fpDoubleToSingle_of_shuffled_exponent s (by decide) (by decide)
  · obtain ⟨habove, hback⟩ := rebias_shuffle e h0 h255
    rw [fpSingleToDouble_normal s h0 h255]
    exact fpDoubleToSingle_of_shuffled_exponent s habove hback

end RoundTrip

end Conversions

/-! ### What a single-precision store writes (R102, U7) -/

section SingleToStore

variable {s : State} {d : Word}

theorem singleToStore_of_some {w : BitVec 32} (h : doubleToSingle s.launch d = some w) : singleToStore d s = (w, s) := by
  simp [singleToStore, h]

theorem singleToStore_of_none (h : doubleToSingle s.launch d = none) :
    singleToStore d s = (Config.draw32 s.draws, { s with draws := s.draws + 1 }) := by
  simp [singleToStore, h]

end SingleToStore

/-! ### Floating-point accesses that complete (R100) -/

section Completing

variable {s : State} {n : Nat} {i j : Instr} {ra : Reg} {inc inc' : Word}

/-- What the immediate and the indexed form of a load do, in a valid form with a readable access: both load the one value that
the access holds, converted. `conv_eq` writes the conversion out. -/
theorem fpLoad_forms {conv v : BitVec (8 * n) → Word} {frt : Reg} (conv_eq : ∀ m, conv m = v m)
    (hfp : s.launch.admitFp = true) (h0 : ra ≠ 0) (hread : Readable s (s.gpr.get ra) n) :
    ∃ m, memRead s (s.gpr.get ra) n = .ok m ∧
      fpLoad i n conv frt ra inc s = .next (afterFpLoad s frt ra (v m) inc) ∧
      fpLoad j n conv frt ra inc' s = .next (afterFpLoad s frt ra (v m) inc') := by
  obtain ⟨m, hm⟩ := memRead_of_readable hread
  exact ⟨m, hm, conv_eq m ▸ fpLoad_of_memRead hfp h0 hm, conv_eq m ▸ fpLoad_of_memRead hfp h0 hm⟩

theorem fpStore_of_memWrite {conv : Word → State → BitVec (8 * n) × State} {frs : Reg} {v : BitVec (8 * n)} {t u : State}
    (hconv : conv (s.readFpr frs) s = (v, t)) (hfp : s.launch.admitFp = true) (h0 : ra ≠ 0)
    (hu : memWrite t (s.readGpr ra) n v = .ok u) :
    fpStore i n conv frs ra inc s = .next ((u.writeGpr ra (s.readGpr ra + inc)).advancePc) := by
  simp [fpStore, hconv, hfp, h0, hu]

/-- What the immediate and the indexed form of a store do, in a valid form with a writable access: both leave one memory, with
the converted value at the old RA. `hconv` gives that value and how many free values stand drawn after it. -/
theorem fpStore_forms {conv : Word → State → BitVec (8 * n) × State} {frs : Reg} {v : BitVec (8 * n)} {k : Nat}
    (hn : n ≤ 2 ^ 64) (hconv : conv (s.readFpr frs) s = (v, { s with draws := k })) (hfp : s.launch.admitFp = true)
    (h0 : ra ≠ 0) (hwr : Writable s (s.gpr.get ra) n) :
    ∃ mem, Stored s mem (s.gpr.get ra) n v ∧
      fpStore i n conv frs ra inc s = .next (afterStore { s with draws := k } mem ra inc) ∧
      fpStore j n conv frs ra inc' s = .next (afterStore { s with draws := k } mem ra inc') := by
  obtain ⟨mem, hstored, hok⟩ := memWrite_of_writable (s := { s with draws := k }) v hn hwr
  exact ⟨mem, hstored, fpStore_of_memWrite hconv hfp h0 hok, fpStore_of_memWrite hconv hfp h0 hok⟩

end Completing

end Sys2Proof.Machine
end

section
/-! The statements of the family of spec/42_fp_loadstore_postupdate.md, settled. -/

open Sys2Proof Sys2Proof.Machine

namespace Sys2Proof.FpLoadStoreFamily

/-- Settles O6: each word is the encoding of its instruction under P0. -/
theorem writtenOutWordsDecode : Obligations.WrittenOutWordsDecode := by
  have hwf : Opcodes.p0.wf := by decide
  and_intros <;> exact decode_of_encode hwf rfl

/-- Settles O42: a doubleword fills FRT. -/
theorem loadFpDouble : Obligations.LoadFpDouble :=
  fun _ _ _ _ _ => fpLoad_forms zext_doubleword

/-- Settles O43: the conversion is the launch's. -/
theorem loadFpSingle : Obligations.LoadFpSingle := by
  intro s frt ra rb d hfp h0 hread
  obtain ⟨m, hm, himm, hidx⟩ := fpLoad_forms (fun _ => rfl) hfp h0 hread
  exact ⟨m, hm, himm, hidx, fun hrec => singleToDouble_recommended hrec m⟩

/-- Settles O44: a double is stored as it is and draws no free value. -/
theorem storeFpDouble : Obligations.StoreFpDouble :=
  fun s _ _ _ _ => fpStore_forms (k := s.draws) (by norm_num) rfl

/-- Settles O45: where the conversion has a value, that is stored and no free value is drawn. -/
theorem storeFpSingle : Obligations.StoreFpSingle := by
  intro s frs ra rb d w hfp h0 hwr hdef
  have hconv : doubleToSingle s.launch (s.fpr.get frs) = some w :=
    hdef.elim id fun ⟨hrec, hw⟩ => (doubleToSingle_recommended hrec _).trans hw
  exact fpStore_forms (k := s.draws) (by norm_num) (singleToStore_of_some hconv) hfp h0 hwr

/-- Settles O46: where the conversion has no value, the next free value is stored. -/
theorem storeFpSingleUndefinedBand : Obligations.StoreFpSingleUndefinedBand := by
  intro s frs ra rb d hfp h0 hwr hundef
  have hconv : doubleToSingle s.launch (s.fpr.get frs) = none :=
    hundef.elim id fun ⟨hrec, he, hd⟩ => (doubleToSingle_recommended hrec _).trans (fpDoubleToSingle_undefined he hd)
  exact fpStore_forms (by norm_num) (singleToStore_of_none hconv) hfp h0 hwr

/-- Settles O47, case by case. -/
theorem singleToDoubleCases : Obligations.SingleToDoubleCases := fun s _ _ =>
  ⟨fpSingleToDouble_normal s, fpSingleToDouble_zero s, fun _ => fpSingleToDouble_denormal s,
    fpSingleToDouble_infinityOrNaN s⟩

/-- Settles O48, case by case; the undefined band is stated over the fields of the double. -/
theorem doubleToSingleCases : Obligations.DoubleToSingleCases := by
  intro s e f
  refine ⟨fpDoubleToSingle_shuffle s, fpDoubleToSingle_zero s, fpDoubleToSingle_truncate s, fun he hne => ?_⟩
  have hexp : (BitVec.extractLsb' (n := 64) 52 11 (s ++ e ++ f)).toNat < 874 := by rwa [(double_fields s e f).2.1]
  refine fpDoubleToSingle_undefined hexp ?_
  rw [double_magnitude, Ne, append_eq_zero_iff]
  exact not_and_or.2 hne

/-- Settles O49, by the case of R102 that each case of R101 lands in. -/
theorem singleToDoubleAndBack : Obligations.SingleToDoubleAndBack :=
  fpDoubleToSingle_fpSingleToDouble

end Sys2Proof.FpLoadStoreFamily
end

section
/-! The law of the shifted mnemonics (spec/43_shifted_postupdate.md): without an encoding, refused by name. -/

namespace Sys2Proof.Machine

/-- R115: an instruction without an encoding is one of the 14 listed only, and it is refused under its own mnemonic in every
state. -/
theorem exec_of_not_encodable (s : State) : ∀ {i : Instr}, i.encodable = false →
    exec i s = .refused (.noSemantics i.mnemonic)
  | .lbzuspx, _ | .lhzuspx, _ | .lhauspx, _ | .lwzuspx, _ | .lwauspx, _ | .lduspx, _
  | .stbuspx, _ | .sthuspx, _ | .stwuspx, _ | .stduspx, _
  | .lfdupsx, _ | .lfsupsx, _ | .stfdupsx, _ | .stfsupsx, _ => rfl

end Sys2Proof.Machine
end

section
/-! The statements of the family of spec/43_shifted_postupdate.md, settled. -/

open Sys2Proof Sys2Proof.Machine

namespace Sys2Proof.ShiftedFamily

/-- Settles O50: the ten have no encoding. -/
theorem shiftedFixedRefused : Obligations.ShiftedFixedRefused := by
  intro s
  and_intros <;> exact exec_of_not_encodable s rfl

/-- Settles O51: the four have no encoding, and that refusal does not depend on the launch's ADMIT_FP. -/
theorem shiftedFpRefused : Obligations.ShiftedFpRefused := by
  intro s
  and_intros <;> exact exec_of_not_encodable s rfl

end Sys2Proof.ShiftedFamily
end

section
/-! The laws of taking an exception (spec/60_exceptions.md): what a raise leaves of the state, that a recorded one ends the run
(R140, R163), and where the templates raise (R143, R147). -/

namespace Sys2Proof.Machine

/-! ### A raise and the state after it (R29, R140) -/

section Raise

variable {s : State} {x y : Stop}

theorem raise_injective (h : raise x = raise y) : x = y := by
  cases x <;> cases y <;> cases h <;> rfl

/-- An outcome is a next state or a raise. -/
theorem outcome_cases (o : Host.Outcome State Fault Refusal) : (∃ t, o = .next t) ∨ ∃ x, o = raise x := by
  cases o with
  | next t => exact .inl ⟨t, rfl⟩
  | fault f => exact .inr ⟨.fault f, rfl⟩
  | refused r => exact .inr ⟨.refusal r, rfl⟩

theorem after_raise (s : State) (x : Stop) : s.after (raise x) = s.record x := by
  cases x <;> rfl

theorem record_of_recorded (hx : x.recorded = true) (hrec : s.faultRecord = []) :
    s.record x = { s with faultRecord := [⟨x, s.pc⟩] } := by
  simp [State.record, hx, hrec]

theorem record_of_not_recorded (hx : x.recorded = false) : s.record x = s := by
  simp [State.record, hx]

theorem transition_of_next {t : State} (h : step s = .next t) : transition s = t := by
  rw [transition, h, State.after]

theorem transition_of_raise (h : step s = raise x) : transition s = s.record x := by
  rw [transition, h, after_raise]

/-! ### No step after a recorded raise (R163) -/

theorem step_of_faulted (h : s.faultRecord ≠ []) : step s = raise (.fault .haltedByFault) := by
  simp [step, State.current, h]

theorem transition_of_faulted (h : s.faultRecord ≠ []) : transition s = s :=
  (transition_of_raise (step_of_faulted h)).trans (record_of_not_recorded rfl)

/-- A step that raises one of the six outcomes started without a fault recorded: from a faulted state step answers
haltedByFault, which is none of them. -/
theorem faultRecord_eq_nil_of_raise (hx : x.recorded = true) (h : step s = raise x) : s.faultRecord = [] := by
  by_contra hrec
  obtain rfl := raise_injective (h.symm.trans (step_of_faulted hrec))
  cases hx

/-- The first raise keeps the invariant: it changes the fault record alone, and leaves it with at most one entry. -/
theorem record_inv (x : Stop) (hinv : s.Inv) (hrec : s.faultRecord = []) : (s.record x).Inv := by
  cases hx : x.recorded with
  | false => rwa [record_of_not_recorded hx]
  | true =>
    rw [record_of_recorded hx hrec]
    exact { hinv with oneRaise := le_rfl }

end Raise

/-! ### Where the templates raise (R70, R100, R143 (a), R147) -/

section TemplateRaises

variable {s : State} {i : Instr} {n : Nat} {ra : Reg} {inc : Word} {x : Stop}

theorem fpLoad_of_not_admitted {conv : BitVec (8 * n) → Word} {frt : Reg} (h : s.launch.admitFp = false) :
    fpLoad i n conv frt ra inc s = .refused (.fpNotAdmitted i.mnemonic) := by
  simp [fpLoad, h, raise]

theorem fpStore_of_not_admitted {conv : Word → State → BitVec (8 * n) × State} {frs : Reg} (h : s.launch.admitFp = false) :
    fpStore i n conv frs ra inc s = .refused (.fpNotAdmitted i.mnemonic) := by
  simp [fpStore, h, raise]

theorem fixedLoad_of_memRead_error {insn : Insn} {ext : BitVec (8 * n) → Word} {rt : Reg} (h0 : ra ≠ 0) (hrt : ra ≠ rt)
    (hx : memRead s (s.readGpr ra) n = .error x) : fixedLoad insn n ext rt ra inc s = raise x := by
  simp [fixedLoad, h0, hrt, hx]

theorem fpLoad_of_memRead_error {conv : BitVec (8 * n) → Word} {frt : Reg} (hfp : s.launch.admitFp = true) (h0 : ra ≠ 0)
    (hx : memRead s (s.readGpr ra) n = .error x) : fpLoad i n conv frt ra inc s = raise x := by
  simp [fpLoad, hfp, h0, hx]

/-- Where MemRead raises, so does each of the 15 loads in a valid form. -/
theorem exec_load_of_memRead_error (hform : i.formOk = true) (hfp : i.isFp = true → s.launch.admitFp = true)
    (hacc : i.loadAccess = some (ra, n)) (hx : memRead s (s.readGpr ra) n = .error x) : exec i s = raise x := by
  cases i
  case lbzup | lbzupx | lhzup | lhzupx | lhaup | lhaupx | lwzup | lwzupx | lwaupx | ldup | ldupx =>
    cases hacc
    obtain ⟨h0, hrt⟩ : _ ≠ _ ∧ _ ≠ _ := by simpa [Instr.formOk] using hform
    exact fixedLoad_of_memRead_error h0 hrt hx
  case lfdup | lfsup | lfdupx | lfsupx =>
    cases hacc
    exact fpLoad_of_memRead_error (hfp rfl) (by simpa [Instr.formOk] using hform) hx
  all_goals cases hacc

/-- Where a test that MemRead and MemWrite share raises, so does each of the 27 instructions in a valid form. -/
theorem exec_of_access_error (hform : i.formOk = true) (hfp : i.isFp = true → s.launch.admitFp = true)
    (hacc : i.loadAccess = some (ra, n) ∨ i.storeAccess = some (ra, n))
    (hread : memRead s (s.readGpr ra) n = .error x)
    (hwrite : ∀ (d : Nat) (v : BitVec (8 * n)), memWrite { s with draws := d } (s.readGpr ra) n v = .error x) :
    exec i s = raise x :=
  hacc.elim (exec_load_of_memRead_error hform hfp · hread) (exec_store_of_memWrite_error hform hfp · hwrite)

end TemplateRaises

end Sys2Proof.Machine
end

section
/-! The statements of the family of spec/60_exceptions.md, settled. -/

open Sys2Proof Sys2Proof.Machine

namespace Sys2Proof.ExceptionsFamily

/-! ### The transition of a raise (R29, R140, R163) -/

/-- Settles O10: the record was empty, so the raise stands alone in it, and a faulted state has no further step. -/
theorem raiseRecordsAndWritesNothing : Obligations.RaiseRecordsAndWritesNothing := by
  intro s x hx hstep
  have hrec : s.faultRecord = [] := faultRecord_eq_nil_of_raise hx hstep
  have hafter : transition s = { s with faultRecord := [⟨x, s.pc⟩] } :=
    (transition_of_raise hstep).trans (record_of_recorded hx hrec)
  exact ⟨hafter, transition_of_faulted (by simp [hafter])⟩

/-- Settles O17: a faulted state stays, a step that completes keeps the invariant by O16, and a raise only records itself. -/
theorem transitionKeepsTheInvariant : Obligations.TransitionKeepsTheInvariant := by
  intro s hinv
  by_cases hrec : s.faultRecord = []
  · obtain ⟨t, hnext⟩ | ⟨x, hraise⟩ := outcome_cases (step s)
    · rw [transition_of_next hnext]
      exact (StateFamily.stepKeepsTheInvariant s t hinv hnext).1
    · rw [transition_of_raise hraise]
      exact record_inv x hinv hrec
  · rwa [transition_of_faulted hrec]

/-! ### Where an instruction raises (R143 to R147) -/

/-- Settles O28: alignment is the first test of MemRead and of MemWrite. -/
theorem misalignedAccessRaises : Obligations.MisalignedAccessRaises := by
  intro i s ra n hform hfp hacc hfault hodd
  have halign : s.misalignedFaults (s.gpr.get ra) n = true := misalignedFaults_iff.2 ⟨hfault, hodd⟩
  exact exec_of_access_error hform hfp hacc (memRead_of_misaligned halign) fun d _ =>
    memWrite_of_misaligned (s := { s with draws := d }) halign

/-- Settles O29: MEMORY_MAP is the second test of MemRead and of MemWrite. -/
theorem unmappedAccessRaises : Obligations.UnmappedAccessRaises := by
  intro i s ra n hform hfp hacc hdivides hout
  have halign : s.misalignedFaults (s.gpr.get ra) n = false := misalignedFaults_eq_false_iff.2 hdivides
  have hmap : s.mapped (s.gpr.get ra) n = false := mapped_eq_false_iff.2 hout
  exact exec_of_access_error hform hfp hacc (memRead_of_unmapped halign hmap) fun d _ =>
    memWrite_of_unmapped (s := { s with draws := d }) halign hmap

/-- Settles O30, by the third test of MemRead. -/
theorem unwrittenByteRaises : Obligations.UnwrittenByteRaises := by
  intro i s ra n k hform hfp hload hacc hk hsome hnone
  exact exec_load_of_memRead_error hform hfp hload (memRead_of_first_missing hacc hk hsome hnone)

/-- Settles O27: both floating-point templates test ADMIT_FP first. -/
theorem fpRefusedUnlessAdmitted : Obligations.FpRefusedUnlessAdmitted := by
  intro i s hisFp hfp
  cases i
  case lfdup | lfsup | lfdupx | lfsupx => exact fpLoad_of_not_admitted hfp
  case stfdup | stfsup | stfdupx | stfsupx => exact fpStore_of_not_admitted hfp
  all_goals cases hisFp

end Sys2Proof.ExceptionsFamily
end

section
/-! The laws of a run (spec/70_reset_and_hazards.md): what a step does at a word of the text, that every raise of an instruction
is one that the fault record keeps, and that a run ends within the words it has left and stays ended (R161, R163). -/

namespace Sys2Proof.Machine

/-! ### The step at a word of the text (R161) -/

/-- Decoding fails in one way only (R62). -/
theorem decode_cases (ops : Opcodes) (w : Insn) :
    (∃ i, decode ops w = .ok i) ∨ decode ops w = .error (.unrecognised w) := by
  unfold decode
  split
  · exact .inl ⟨_, rfl⟩
  · exact .inr rfl

theorem step_of_decode {s : State} {w : Insn} {i : Instr} (hrec : s.faultRecord = []) (hfinal : s.isFinal = false)
    (hfetch : s.fetch = some w) (hw : decode s.launch.opcodes w = .ok i) : step s = exec i s :=
  step_of_current (by simp [State.current, hrec, hfinal, hfetch, hw])

/-! ### Every raise of an instruction is recorded (R140) -/

/-- The outcome is a next state or one of the six outcomes that the fault record keeps. -/
def RaisesAreRecorded (o : Host.Outcome State Fault Refusal) : Prop := ∀ x, o = raise x → x.recorded = true

section Recorded

variable {s : State} {a : Addr} {n : Nat} {x : Stop} {ra : Reg} {inc : Word} {i : Instr}

theorem raisesAreRecorded_raise (hx : x.recorded = true) : RaisesAreRecorded (raise x) :=
  fun _ h => raise_injective h ▸ hx

theorem raisesAreRecorded_next (t : State) : RaisesAreRecorded (.next t) :=
  fun x h => absurd h.symm (raise_ne_next x t)

theorem memRead_error_recorded (h : memRead s a n = .error x) : x.recorded = true := by
  obtain rfl | rfl | ⟨b, rfl⟩ := memRead_error h <;> rfl

theorem memWrite_error_recorded {v : BitVec (8 * n)} (h : memWrite s a n v = .error x) : x.recorded = true := by
  obtain rfl | rfl | rfl := memWrite_error h <;> rfl

theorem fixedLoad_raisesAreRecorded {insn : Insn} {ext : BitVec (8 * n) → Word} {rt : Reg} :
    RaisesAreRecorded (fixedLoad insn n ext rt ra inc s) := by
  unfold fixedLoad
  split
  · exact raisesAreRecorded_raise rfl
  · split
    · exact raisesAreRecorded_raise (memRead_error_recorded ‹_›)
    · exact raisesAreRecorded_next _

theorem fixedStore_raisesAreRecorded {insn : Insn} {rs : Reg} : RaisesAreRecorded (fixedStore insn n rs ra inc s) := by
  unfold fixedStore
  split
  · exact raisesAreRecorded_raise rfl
  · split
    · exact raisesAreRecorded_raise (memWrite_error_recorded ‹_›)
    · exact raisesAreRecorded_next _

theorem fpLoad_raisesAreRecorded {conv : BitVec (8 * n) → Word} {frt : Reg} :
    RaisesAreRecorded (fpLoad i n conv frt ra inc s) := by
  unfold fpLoad
  split
  · exact raisesAreRecorded_raise rfl
  · split
    · exact raisesAreRecorded_raise rfl
    · split
      · exact raisesAreRecorded_raise (memRead_error_recorded ‹_›)
      · exact raisesAreRecorded_next _

theorem fpStore_raisesAreRecorded {conv : Word → State → BitVec (8 * n) × State} {frs : Reg} :
    RaisesAreRecorded (fpStore i n conv frs ra inc s) := by
  unfold fpStore
  split
  · exact raisesAreRecorded_raise rfl
  · split
    · exact raisesAreRecorded_raise rfl
    · split
      · exact raisesAreRecorded_raise (memWrite_error_recorded ‹_›)
      · exact raisesAreRecorded_next _

theorem exec_raisesAreRecorded (i : Instr) (s : State) : RaisesAreRecorded (exec i s) := by
  cases i
  case lbzup | lbzupx | lhzup | lhzupx | lhaup | lhaupx | lwzup | lwzupx | lwaupx | ldup | ldupx =>
    exact fixedLoad_raisesAreRecorded
  case stbup | stbupx | sthup | sthupx | stwup | stwupx | stdup | stdupx => exact fixedStore_raisesAreRecorded
  case lfdup | lfsup | lfdupx | lfsupx => exact fpLoad_raisesAreRecorded
  case stfdup | stfsup | stfdupx | stfsupx => exact fpStore_raisesAreRecorded
  all_goals exact raisesAreRecorded_raise (x := .refusal (.noSemantics _)) rfl

/-- Once a word is fetched a step raises only what the record keeps: the other three outcomes say that there is none to fetch. -/
theorem step_raisesAreRecorded {w : Insn} (hrec : s.faultRecord = []) (hfinal : s.isFinal = false)
    (hfetch : s.fetch = some w) : RaisesAreRecorded (step s) := by
  obtain ⟨i, hi⟩ | hw := decode_cases s.launch.opcodes w
  · rw [step_of_decode hrec hfinal hfetch hi]
    exact exec_raisesAreRecorded i s
  · rw [step_of_unrecognised hrec hfinal hfetch hw]
    exact raisesAreRecorded_raise (x := .refusal (.unrecognised w)) rfl

end Recorded

/-! ### The end of a run (R163) -/

/-- The run is over: the state is final, or a fault is recorded. -/
def State.Ended (s : State) : Prop := s.isFinal = true ∨ s.faultRecord ≠ []

section Run

variable {s : State}

theorem isFinal_iff : s.isFinal = true ↔ s.atTextEnd = true ∧ s.faultRecord = [] := by
  simp [State.isFinal]

theorem atTextEnd_iff :
    s.atTextEnd = true ↔ s.pc = s.launch.textBase + BitVec.ofNat 64 (4 * s.launch.text.length) := beq_iff_eq

theorem not_ended_iff : ¬s.Ended ↔ s.faultRecord = [] ∧ s.isFinal = false := by
  rw [State.Ended, not_or, not_not, Bool.not_eq_true, and_comm]

theorem ended_of_atTextEnd (h : s.atTextEnd = true) : s.Ended :=
  or_iff_not_imp_right.2 fun hrec => isFinal_iff.2 ⟨h, not_not.1 hrec⟩

theorem step_of_final (h : s.isFinal = true) : step s = raise (.fault .runEnded) := by
  simp [step, State.current, (isFinal_iff.1 h).2, h]

theorem transition_of_ended (h : s.Ended) : transition s = s := by
  obtain hfinal | hrec := h
  · exact (transition_of_raise (step_of_final hfinal)).trans (record_of_not_recorded rfl)
  · exact transition_of_faulted hrec

theorem transitions_eq_iterate (k : Nat) : ∀ s, transitions k s = transition^[k] s := by
  induction k with
  | zero => exact fun _ => rfl
  | succ k ih => exact fun s => ih (transition s)

/-- A run that has ended after k transitions stays as it is. -/
theorem transitions_of_ended {j k : Nat} (hkj : k ≤ j) (h : (transitions k s).Ended) :
    transitions j s = transitions k s := by
  obtain ⟨d, rfl⟩ := Nat.exists_eq_add_of_le' hkj
  rw [transitions_eq_iterate, Function.iterate_add_apply, ← transitions_eq_iterate k,
    Function.iterate_fixed (transition_of_ended h)]

/-- Under the invariant a transition of a run that is not over completes its step or records a raise. -/
theorem State.Inv.step_next_or_faulted (hinv : s.Inv) (hend : ¬s.Ended) :
    (∃ t, step s = .next t) ∨ (transition s).faultRecord ≠ [] := by
  obtain ⟨hrec, hfinal⟩ := not_ended_iff.1 hend
  refine (outcome_cases (step s)).imp_right fun ⟨x, hx⟩ => ?_
  obtain ⟨-, hword⟩ := StateFamily.pcIsAlignedAndInText s hinv hrec
  obtain ⟨-, w, -, -, hfetch⟩ := hword hfinal
  have hrecorded : x.recorded = true := step_raisesAreRecorded hrec hfinal hfetch x hx
  simp [transition_of_raise hx, record_of_recorded hrecorded hrec]

/-- A step that completes at word k of the text leaves pc at word k + 1, or at the end. -/
theorem pc_of_step_next {t : State} {k : Nat} (hpc : s.pc = s.launch.textBase + BitVec.ofNat 64 (4 * k))
    (hnext : step s = .next t) : t.pc = t.launch.textBase + BitVec.ofNat 64 (4 * (k + 1)) := by
  rw [StateFamily.completedStepAddsFourToPc s t hnext, (StateFamily.textAndParametersNeverChange s t hnext).1, hpc,
    Nat.mul_succ, BitVec.ofNat_add, BitVec.add_assoc]

/-- With n words of the text left, the run is over within n transitions: each of them takes one word, or records a raise. -/
theorem exists_ended_of_words_left {n k : Nat} (hinv : s.Inv) (hn : k + n = s.launch.text.length)
    (hpc : s.pc = s.launch.textBase + BitVec.ofNat 64 (4 * k)) : ∃ j ≤ n, (transitions j s).Ended := by
  induction n generalizing s k with
  | zero => exact ⟨0, le_rfl, ended_of_atTextEnd (atTextEnd_iff.2 (hn ▸ hpc))⟩
  | succ n ih =>
    by_cases hend : s.Ended
    · exact ⟨0, Nat.zero_le _, hend⟩
    obtain ⟨t, hnext⟩ | hfault := hinv.step_next_or_faulted hend
    · have htext : (k + 1) + n = t.launch.text.length := by
        rw [(StateFamily.textAndParametersNeverChange s t hnext).1, ← hn, Nat.add_right_comm, Nat.add_assoc]
      obtain ⟨j, hj, hended⟩ :=
        ih (StateFamily.stepKeepsTheInvariant s t hinv hnext).1 htext (pc_of_step_next hpc hnext)
      exact ⟨j + 1, Nat.succ_le_succ hj, by rwa [transitions, transition_of_next hnext]⟩
    · exact ⟨1, Nat.succ_le_succ (Nat.zero_le n), .inr hfault⟩

/-- The run from a state that meets the invariant is over within the words it has left. -/
theorem State.Inv.exists_ended (hinv : s.Inv) : ∃ j ≤ s.remaining, (transitions j s).Ended := by
  by_cases hend : s.Ended
  · exact ⟨0, Nat.zero_le _, hend⟩
  obtain ⟨k, hk, hpc⟩ := hinv.pc_word (Bool.eq_false_iff.2 (mt ended_of_atTextEnd hend))
  have hleft : k + s.remaining = s.launch.text.length := by
    rw [State.remaining, textOffset_of_pc_eq hpc (hinv.four_mul_lt hk)]
    omega
  exact exists_ended_of_words_left hinv hleft hpc

/-! ### The invariant where a run begins (R160) -/

/-- At TEXT_BASE, without a fault recorded, the invariant is what it asks of the parameters and of memory. -/
theorem inv_of_pc_eq_textBase (hops : s.launch.opcodes.wf) (hplaced : s.launch.placed) (hwf : Memory.wf s.mem)
    (hmap : ∀ c ∈ s.mem, s.launch.admits c.1 = true) (htext : agreesWithText s.launch s.mem)
    (hpc : s.pc = s.launch.textBase) (hrec : s.faultRecord = []) : s.Inv where
  opcodesWf := hops
  placed    := hplaced
  memWf     := hwf
  memMapped := hmap
  memText   := htext
  pcInText  := ⟨0, Nat.zero_le _, by simp [hpc]⟩
  oneRaise  := by simp [hrec]

end Run

end Sys2Proof.Machine
end

section
/-! The statements of the family of spec/70_reset_and_hazards.md, settled. -/

open Sys2Proof Sys2Proof.Machine

namespace Sys2Proof.ResetFamily

/-! ### The steps of a run and its end (R161, R163) -/

/-- Settles O19: one word of the text is taken by each transition until the run is over, and an ended run stays as it is. -/
theorem everyRunEnds : Obligations.EveryRunEnds := by
  intro s hinv
  obtain ⟨k, hk, hended⟩ := hinv.exists_ended
  exact ⟨Nat.sub_le _ _, k, hk, hended, fun _ hj => transitions_of_ended hj hended⟩

/-- Settles O8: fetch at word k of the text. -/
theorem stepRunsTheDecodedInstruction : Obligations.StepRunsTheDecodedInstruction := by
  intro s k w i hrec hfinal hpc hk hword hdecode
  exact step_of_decode hrec hfinal ((fetch_of_pc_eq hpc hk).trans hword) hdecode

/-- Settles O9: step tests the fault record and then the end of the text, and what it answers there is not recorded. -/
theorem noStepFromFinalOrFaulted : Obligations.NoStepFromFinalOrFaulted := by
  refine ⟨fun s hpc hrec => ?_, fun s hrec => ⟨step_of_faulted hrec, transition_of_faulted hrec⟩⟩
  have hfinal : s.isFinal = true := isFinal_iff.2 ⟨atTextEnd_iff.2 hpc, hrec⟩
  exact ⟨step_of_final hfinal, transition_of_ended (.inl hfinal)⟩

/-! ### Reset and launch (R160) -/

/-- Settles O13: State.reset is a launched state with an empty memory. -/
theorem resetState : Obligations.ResetState :=
  ⟨launched_pc _ _ _ _, launched_faultRecord _ _ _ _, fun _ => rfl⟩

/-- Settles O14: an empty memory asks nothing of the map or of the text. -/
theorem resetMeetsTheInvariant : Obligations.ResetMeetsTheInvariant :=
  inv_of_pc_eq_textBase (s := State.reset) (by decide) (by decide) reset_mem_wf nofun nofun rfl rfl

/-- Settles O15: a launched state has the parameters and memory it is launched with, and a launch state is at TEXT_BASE. -/
theorem launchMeetsTheInvariant : Obligations.LaunchMeetsTheInvariant := by
  refine ⟨fun l gpr fpr mem hl hmem hmap htext => ?_, fun s hs => ?_⟩
  · exact { params := hl, atBase := rfl, memWf := hmem, memNamed := hmap, memText := htext, noFault := rfl }
  · obtain ⟨hops, -, hplaced⟩ := hs.params
    exact inv_of_pc_eq_textBase hops hplaced hs.memWf hs.memNamed hs.memText hs.atBase hs.noFault

end Sys2Proof.ResetFamily
end
